-- ==== Sys2Proof/Word.lean ====
section
/-! DEFINITION. The widths of the machine's quantities (spec 10_state.md, 30_encoding.md R92): nothing in this
hardware is signed (R11). -/

namespace Sys2Proof

/-- A memory byte, a V register, a timer, an immediate `kk`: 8 bits (R20, R30, R38, R92). -/
abbrev Byte := BitVec 8

/-- An opcode, `pc`, `I`, a stack entry: 16 bits (R12, R24, R26, R28). -/
abbrev Word := BitVec 16

/-- The field `nnn` of an opcode, a 12-bit address (R92). -/
abbrev Addr := BitVec 12

/-- A general register's number, 0 to 15 (R20); the fields `x` and `y` (R92). -/
abbrev Reg := Fin 16

end Sys2Proof
end

