-- ==== Sys2Proof/Syntax.lean ====
section
/-! DEFINITION. The 34 instructions of the identification table (30_encoding.md R93), one constructor per row of
opcode_table.json, in the table's order. The field types are the ranges of R92, so every term is an instruction
of the hardware. -/

namespace Sys2Proof

inductive Instr
  /-- 00E0 `CLS` (R190). -/
  | cls
  /-- 00EE `RET` (R141). -/
  | ret
  /-- 1nnn `JP nnn` (R142). -/
  | jp (nnn : Addr)
  /-- 2nnn `CALL nnn` (R143). -/
  | call (nnn : Addr)
  /-- 3xkk `SE Vx,kk` (R145). -/
  | seImm (x : Reg) (kk : Byte)
  /-- 4xkk `SNE Vx,kk` (R146). -/
  | sneImm (x : Reg) (kk : Byte)
  /-- 5xy0 `SE Vx,Vy` (R147). -/
  | seReg (x y : Reg)
  /-- 6xkk `LD Vx,kk` (R162). -/
  | ldImm (x : Reg) (kk : Byte)
  /-- 7xkk `ADD Vx,kk` (R163). -/
  | addImm (x : Reg) (kk : Byte)
  /-- 8xy0 `LD Vx,Vy` (R164). -/
  | ldReg (x y : Reg)
  /-- 8xy1 `OR Vx,Vy` (R165). -/
  | orReg (x y : Reg)
  /-- 8xy2 `AND Vx,Vy` (R166). -/
  | andReg (x y : Reg)
  /-- 8xy3 `XOR Vx,Vy` (R167). -/
  | xorReg (x y : Reg)
  /-- 8xy4 `ADD Vx,Vy` with carry out (R168). -/
  | addReg (x y : Reg)
  /-- 8xy5 `SUB Vx,Vy` (R169). -/
  | subReg (x y : Reg)
  /-- 8xy6 `SHR Vx`; `y` is encoded and ignored (R170, R96). -/
  | shr (x y : Reg)
  /-- 8xy7 `SUBN Vx,Vy` (R171). -/
  | subnReg (x y : Reg)
  /-- 8xyE `SHL Vx`; `y` is encoded and ignored (R172, R96). -/
  | shl (x y : Reg)
  /-- 9xy0 `SNE Vx,Vy` (R148). -/
  | sneReg (x y : Reg)
  /-- Annn `LD I,nnn` (R180). -/
  | ldI (nnn : Addr)
  /-- Bnnn `JP V0,nnn` (R144). -/
  | jpV0 (nnn : Addr)
  /-- Cxkk `RND Vx,kk` (R183). -/
  | rnd (x : Reg) (kk : Byte)
  /-- Dxyn `DRW Vx,Vy,n`, `n` rows (R192). -/
  | drw (x y : Reg) (n : Fin 16)
  /-- Ex9E `SKP Vx` (R200). -/
  | skp (x : Reg)
  /-- ExA1 `SKNP Vx` (R201). -/
  | sknp (x : Reg)
  /-- Fx07 `LD Vx,DT` (R210). -/
  | ldVxDT (x : Reg)
  /-- Fx0A `LD Vx,K` (R202). -/
  | ldVxK (x : Reg)
  /-- Fx15 `LD DT,Vx` (R211). -/
  | ldDTVx (x : Reg)
  /-- Fx18 `LD ST,Vx` (R212). -/
  | ldSTVx (x : Reg)
  /-- Fx1E `ADD I,Vx` (R181). -/
  | addIVx (x : Reg)
  /-- Fx29 `LD F,Vx` (R182). -/
  | ldFVx (x : Reg)
  /-- Fx33 `LD B,Vx` (R221). -/
  | ldBVx (x : Reg)
  /-- Fx55 `LD [I],Vx` (R222). -/
  | ldMemVx (x : Reg)
  /-- Fx65 `LD Vx,[I]` (R223). -/
  | ldVxMem (x : Reg)
  deriving DecidableEq, Repr

end Sys2Proof
end

