-- ==== Sys2Proof/WellFormed.lean ====
section
/-! DEFINITION. Instructions as they are written in a listing (30_encoding.md R98), and the check that a written
line is well formed: its operands have a shape its mnemonic takes, and every number fits its field. A term of
`Instr` carries the ranges of R92 in its types, so it is well formed by itself; `Instr.wellFormed` says that its
listing passes this check. -/

namespace Sys2Proof

/-- The mnemonics of R93's column "Assembler". -/
inductive Mnemonic
  | cls | ret | jp | call | se | sne | ld | add | or | and | xor | sub | shr | subn | shl | rnd | drw | skp | sknp
  deriving DecidableEq, Repr

/-- An operand as written (R98): a register, a number, or one of the fixed operand words. -/
inductive Operand
  | v (r : Nat) | num (value : Nat)
  | i | dt | st | k | f | b | memI
  deriving DecidableEq, Repr

/-- One line of a listing (R98): an instruction, or the data directive `DW`. -/
inductive AsmLine
  | instr (m : Mnemonic) (ops : List Operand)
  | dw (value : Nat)
  deriving DecidableEq, Repr

/-- What an operand is, its value left out: the operand shape that selects the instruction (R98). -/
def Operand.kind : Operand → Operand
  | .v _ => .v 0
  | .num _ => .num 0
  | op => op

/-- The operand shapes a mnemonic takes (R93, R98): `LD` has eleven, `ADD` three, `JP`, `SE`, `SNE` two each;
`SHR` and `SHL` may leave the ignored `y` out. -/
def Mnemonic.shapes : Mnemonic → List (List Operand)
  | .cls | .ret => [[]]
  | .jp => [[.num 0], [.v 0, .num 0]]
  | .call => [[.num 0]]
  | .se | .sne => [[.v 0, .num 0], [.v 0, .v 0]]
  | .ld => [[.v 0, .num 0], [.v 0, .v 0], [.i, .num 0], [.v 0, .dt], [.v 0, .k], [.dt, .v 0], [.st, .v 0],
      [.f, .v 0], [.b, .v 0], [.memI, .v 0], [.v 0, .memI]]
  | .add => [[.v 0, .num 0], [.v 0, .v 0], [.i, .v 0]]
  | .or | .and | .xor | .sub | .subn => [[.v 0, .v 0]]
  | .shr | .shl => [[.v 0], [.v 0, .v 0]]
  | .rnd => [[.v 0, .num 0]]
  | .drw => [[.v 0, .v 0, .num 0]]
  | .skp | .sknp => [[.v 0]]

/-- The size of the field a number of this line goes to (R92): `nnn` 12 bits, `n` 4 bits, `kk` 8 bits. -/
def Mnemonic.numLimit : Mnemonic → List Operand → Nat
  | .jp, _ | .call, _ => 4096
  | .ld, .i :: _ => 4096
  | .drw, _ => 16
  | _, _ => 256

/-- A register is V0..VF; a number fits its field (R98: "must fit their field"). -/
def Operand.fits (limit : Nat) : Operand → Bool
  | .v r => r < 16
  | .num value => value < limit
  | _ => true

/-- `JP V0,nnn` names register V0 and no other (R144). -/
def jumpRegisterOk : Mnemonic → List Operand → Bool
  | .jp, [.v r, _] => r = 0
  | _, _ => true

/-- The check: the shape is one of the mnemonic's, each operand fits, and a `DW` word has 16 bits. -/
def AsmLine.wellFormed : AsmLine → Bool
  | .instr m ops =>
    (ops.map Operand.kind) ∈ m.shapes && ops.all (Operand.fits (m.numLimit ops)) && jumpRegisterOk m ops
  | .dw value => value < 65536

/-- The listing of an instruction (R93's column "Assembler"), the ignored `y` of the shifts written out. -/
def Instr.listing : Instr → AsmLine
  | .cls => .instr .cls []
  | .ret => .instr .ret []
  | .jp nnn => .instr .jp [.num nnn.toNat]
  | .call nnn => .instr .call [.num nnn.toNat]
  | .seImm x kk => .instr .se [.v x, .num kk.toNat]
  | .sneImm x kk => .instr .sne [.v x, .num kk.toNat]
  | .seReg x y => .instr .se [.v x, .v y]
  | .ldImm x kk => .instr .ld [.v x, .num kk.toNat]
  | .addImm x kk => .instr .add [.v x, .num kk.toNat]
  | .ldReg x y => .instr .ld [.v x, .v y]
  | .orReg x y => .instr .or [.v x, .v y]
  | .andReg x y => .instr .and [.v x, .v y]
  | .xorReg x y => .instr .xor [.v x, .v y]
  | .addReg x y => .instr .add [.v x, .v y]
  | .subReg x y => .instr .sub [.v x, .v y]
  | .shr x y => .instr .shr [.v x, .v y]
  | .subnReg x y => .instr .subn [.v x, .v y]
  | .shl x y => .instr .shl [.v x, .v y]
  | .sneReg x y => .instr .sne [.v x, .v y]
  | .ldI nnn => .instr .ld [.i, .num nnn.toNat]
  | .jpV0 nnn => .instr .jp [.v 0, .num nnn.toNat]
  | .rnd x kk => .instr .rnd [.v x, .num kk.toNat]
  | .drw x y n => .instr .drw [.v x, .v y, .num n]
  | .skp x => .instr .skp [.v x]
  | .sknp x => .instr .sknp [.v x]
  | .ldVxDT x => .instr .ld [.v x, .dt]
  | .ldVxK x => .instr .ld [.v x, .k]
  | .ldDTVx x => .instr .ld [.dt, .v x]
  | .ldSTVx x => .instr .ld [.st, .v x]
  | .addIVx x => .instr .add [.i, .v x]
  | .ldFVx x => .instr .ld [.f, .v x]
  | .ldBVx x => .instr .ld [.b, .v x]
  | .ldMemVx x => .instr .ld [.memI, .v x]
  | .ldVxMem x => .instr .ld [.v x, .memI]

/-- An instruction is well formed when its listing is. -/
def Instr.wellFormed (i : Instr) : Bool := i.listing.wellFormed

end Sys2Proof
end

