-- ==== Sys2Proof/Decode.lean ====
section
/-! DEFINITION. Decoding and encoding (30_encoding.md): the decoder is a total function of the opcode's 16 bits
(R90) in the nested form of R94; a rejected word is named by its class in R95. The encoder is written from the
patterns of R93, `opcodeRows` is R93's table of (match, mask), and `assemble` reads a listing line (R98). -/

namespace Sys2Proof

/-! ## Bytes and fields -/

/-- An opcode from its two bytes, the byte at the lower address the high one (20_memory.md R68). -/
def opcodeOf (hi lo : Byte) : Word := (hi.setWidth 16 <<< 8) ||| lo.setWidth 16

/-- The byte of an opcode at the lower address, op[15:8] (R68). -/
def highByte (op : Word) : Byte := op.extractLsb' 8 8

/-- The byte of an opcode at the higher address, op[7:0] (R68). -/
def lowByte (op : Word) : Byte := op.extractLsb' 0 8

/-- The major opcode op[15:12] (R91). -/
def majorOf (op : Word) : Nat := (op.extractLsb' 12 4).toNat

/-- `nnn` = op[11:0] (R92). -/
def nnnOf (op : Word) : Addr := op.extractLsb' 0 12

/-- `x` = op[11:8] (R92). -/
def xOf (op : Word) : Reg := (op.extractLsb' 8 4).toFin

/-- `y` = op[7:4] (R92). -/
def yOf (op : Word) : Reg := (op.extractLsb' 4 4).toFin

/-- `n` = op[3:0] (R92). -/
def nOf (op : Word) : Fin 16 := (op.extractLsb' 0 4).toFin

/-- `kk` = op[7:0] (R92). -/
def kkOf (op : Word) : Byte := op.extractLsb' 0 8

/-! ## The decoder -/

/-- Why bytes are no instruction: the six classes of R95, and fewer than two bytes (which a fetch never gives). -/
inductive DecodeError
  /-- 0nnn other than 00E0 and 00EE. -/
  | machineCall
  /-- 5xy1 to 5xyF. -/
  | seNibble
  /-- 8xy8 to 8xyD and 8xyF. -/
  | aluNibble
  /-- 9xy1 to 9xyF. -/
  | sneNibble
  /-- Exkk with kk other than 9E and A1. -/
  | keyByte
  /-- Fxkk with kk none of 07, 0A, 15, 18, 1E, 29, 33, 55, 65. -/
  | miscByte
  /-- Fewer than two bytes. -/
  | truncated
  deriving DecidableEq, Repr

/-- 8xyn by its last nibble (R94). -/
def decodeAlu (x y : Reg) : Nat → Except DecodeError Instr
  | 0x0 => .ok (.ldReg x y)
  | 0x1 => .ok (.orReg x y)
  | 0x2 => .ok (.andReg x y)
  | 0x3 => .ok (.xorReg x y)
  | 0x4 => .ok (.addReg x y)
  | 0x5 => .ok (.subReg x y)
  | 0x6 => .ok (.shr x y)
  | 0x7 => .ok (.subnReg x y)
  | 0xE => .ok (.shl x y)
  | _ => .error .aluNibble

/-- Exkk by its last byte (R94). -/
def decodeKey (x : Reg) : Nat → Except DecodeError Instr
  | 0x9E => .ok (.skp x)
  | 0xA1 => .ok (.sknp x)
  | _ => .error .keyByte

/-- Fxkk by its last byte (R94). -/
def decodeMisc (x : Reg) : Nat → Except DecodeError Instr
  | 0x07 => .ok (.ldVxDT x)
  | 0x0A => .ok (.ldVxK x)
  | 0x15 => .ok (.ldDTVx x)
  | 0x18 => .ok (.ldSTVx x)
  | 0x1E => .ok (.addIVx x)
  | 0x29 => .ok (.ldFVx x)
  | 0x33 => .ok (.ldBVx x)
  | 0x55 => .ok (.ldMemVx x)
  | 0x65 => .ok (.ldVxMem x)
  | _ => .error .miscByte

/-- The decoder of R94 on one opcode. -/
def decodeWord (op : Word) : Except DecodeError Instr :=
  match majorOf op with
  | 0x0 =>
    if op = 0x00E0#16 then .ok .cls
    else if op = 0x00EE#16 then .ok .ret
    else .error .machineCall
  | 0x1 => .ok (.jp (nnnOf op))
  | 0x2 => .ok (.call (nnnOf op))
  | 0x3 => .ok (.seImm (xOf op) (kkOf op))
  | 0x4 => .ok (.sneImm (xOf op) (kkOf op))
  | 0x5 => if nOf op = 0 then .ok (.seReg (xOf op) (yOf op)) else .error .seNibble
  | 0x6 => .ok (.ldImm (xOf op) (kkOf op))
  | 0x7 => .ok (.addImm (xOf op) (kkOf op))
  | 0x8 => decodeAlu (xOf op) (yOf op) (nOf op)
  | 0x9 => if nOf op = 0 then .ok (.sneReg (xOf op) (yOf op)) else .error .sneNibble
  | 0xA => .ok (.ldI (nnnOf op))
  | 0xB => .ok (.jpV0 (nnnOf op))
  | 0xC => .ok (.rnd (xOf op) (kkOf op))
  | 0xD => .ok (.drw (xOf op) (yOf op) (nOf op))
  | 0xE => decodeKey (xOf op) (kkOf op).toNat
  | _ => decodeMisc (xOf op) (kkOf op).toNat

/-- The decoder on a list of bytes: the instruction at its front and the rest. Every instruction has two bytes
(R91). -/
def decodeBytes : List Byte → Except DecodeError (Instr × List Byte)
  | hi :: lo :: rest =>
    match decodeWord (opcodeOf hi lo) with
    | .ok i => .ok (i, rest)
    | .error e => .error e
  | _ => .error .truncated

/-- The bytes of an opcode in the order they stand in memory (R68). -/
def layOut (op : Word) : List Byte := [highByte op, lowByte op]

/-- The decoder on an opcode-table word: `w` numbered with bit 0 the least significant of the 16-bit word, laid out
as in memory. -/
def decodeTableWord (nbits w : Nat) : Option Instr :=
  match decodeBytes (layOut (BitVec.ofNat 16 (w % 2 ^ nbits))) with
  | .ok (i, _) => some i
  | .error _ => none

/-! ## The encoder -/

/-- A word of four nibbles, most significant first, as R93's patterns are written. -/
def nibbles (a b c d : Nat) : Word := BitVec.ofNat 16 (a * 4096 + b * 256 + c * 16 + d)

/-- Format A (R91): major nibble and `nnn`. -/
def formatA (major : Nat) (nnn : Addr) : Word := BitVec.ofNat 16 (major * 4096 + nnn.toNat)

/-- Format XK (R91): major nibble, `x`, `kk`. -/
def formatXK (major : Nat) (x : Reg) (kk : Byte) : Word := BitVec.ofNat 16 (major * 4096 + x * 256 + kk.toNat)

/-- The word of an instruction, from its pattern in R93. -/
def encode : Instr → Word
  | .cls => 0x00E0#16
  | .ret => 0x00EE#16
  | .jp nnn => formatA 0x1 nnn
  | .call nnn => formatA 0x2 nnn
  | .seImm x kk => formatXK 0x3 x kk
  | .sneImm x kk => formatXK 0x4 x kk
  | .seReg x y => nibbles 0x5 x y 0x0
  | .ldImm x kk => formatXK 0x6 x kk
  | .addImm x kk => formatXK 0x7 x kk
  | .ldReg x y => nibbles 0x8 x y 0x0
  | .orReg x y => nibbles 0x8 x y 0x1
  | .andReg x y => nibbles 0x8 x y 0x2
  | .xorReg x y => nibbles 0x8 x y 0x3
  | .addReg x y => nibbles 0x8 x y 0x4
  | .subReg x y => nibbles 0x8 x y 0x5
  | .shr x y => nibbles 0x8 x y 0x6
  | .subnReg x y => nibbles 0x8 x y 0x7
  | .shl x y => nibbles 0x8 x y 0xE
  | .sneReg x y => nibbles 0x9 x y 0x0
  | .ldI nnn => formatA 0xA nnn
  | .jpV0 nnn => formatA 0xB nnn
  | .rnd x kk => formatXK 0xC x kk
  | .drw x y n => nibbles 0xD x y n
  | .skp x => nibbles 0xE x 0x9 0xE
  | .sknp x => nibbles 0xE x 0xA 0x1
  | .ldVxDT x => nibbles 0xF x 0x0 0x7
  | .ldVxK x => nibbles 0xF x 0x0 0xA
  | .ldDTVx x => nibbles 0xF x 0x1 0x5
  | .ldSTVx x => nibbles 0xF x 0x1 0x8
  | .addIVx x => nibbles 0xF x 0x1 0xE
  | .ldFVx x => nibbles 0xF x 0x2 0x9
  | .ldBVx x => nibbles 0xF x 0x3 0x3
  | .ldMemVx x => nibbles 0xF x 0x5 0x5
  | .ldVxMem x => nibbles 0xF x 0x6 0x5

/-! ## R93's table as data -/

/-- One row of R93: its number, and the word pattern `op & mask = value`. -/
structure OpcodeRow where
  number : Nat
  value : Word
  mask : Word
  deriving DecidableEq, Repr

/-- `op` matches the row (R93). -/
abbrev OpcodeRow.Matches (r : OpcodeRow) (op : Word) : Prop := op &&& r.mask = r.value

def opcodeRows1To13 : List OpcodeRow := [
  ⟨1, 0x00E0, 0xFFFF⟩, ⟨2, 0x00EE, 0xFFFF⟩, ⟨3, 0x1000, 0xF000⟩, ⟨4, 0x2000, 0xF000⟩, ⟨5, 0x3000, 0xF000⟩,
  ⟨6, 0x4000, 0xF000⟩, ⟨7, 0x5000, 0xF00F⟩, ⟨8, 0x6000, 0xF000⟩, ⟨9, 0x7000, 0xF000⟩, ⟨10, 0x8000, 0xF00F⟩,
  ⟨11, 0x8001, 0xF00F⟩, ⟨12, 0x8002, 0xF00F⟩, ⟨13, 0x8003, 0xF00F⟩]

def opcodeRows14To23 : List OpcodeRow := [
  ⟨14, 0x8004, 0xF00F⟩, ⟨15, 0x8005, 0xF00F⟩, ⟨16, 0x8006, 0xF00F⟩, ⟨17, 0x8007, 0xF00F⟩, ⟨18, 0x800E, 0xF00F⟩,
  ⟨19, 0x9000, 0xF00F⟩, ⟨20, 0xA000, 0xF000⟩, ⟨21, 0xB000, 0xF000⟩, ⟨22, 0xC000, 0xF000⟩, ⟨23, 0xD000, 0xF000⟩]

def opcodeRows24To34 : List OpcodeRow := [
  ⟨24, 0xE09E, 0xF0FF⟩, ⟨25, 0xE0A1, 0xF0FF⟩, ⟨26, 0xF007, 0xF0FF⟩, ⟨27, 0xF00A, 0xF0FF⟩, ⟨28, 0xF015, 0xF0FF⟩,
  ⟨29, 0xF018, 0xF0FF⟩, ⟨30, 0xF01E, 0xF0FF⟩, ⟨31, 0xF029, 0xF0FF⟩, ⟨32, 0xF033, 0xF0FF⟩, ⟨33, 0xF055, 0xF0FF⟩,
  ⟨34, 0xF065, 0xF0FF⟩]

/-- The 34 rows of R93. -/
def opcodeRows : List OpcodeRow := opcodeRows1To13 ++ opcodeRows14To23 ++ opcodeRows24To34

/-- The number of the instruction's row in R93. -/
def Instr.rowNumber : Instr → Nat
  | .cls => 1
  | .ret => 2
  | .jp _ => 3
  | .call _ => 4
  | .seImm _ _ => 5
  | .sneImm _ _ => 6
  | .seReg _ _ => 7
  | .ldImm _ _ => 8
  | .addImm _ _ => 9
  | .ldReg _ _ => 10
  | .orReg _ _ => 11
  | .andReg _ _ => 12
  | .xorReg _ _ => 13
  | .addReg _ _ => 14
  | .subReg _ _ => 15
  | .shr _ _ => 16
  | .subnReg _ _ => 17
  | .shl _ _ => 18
  | .sneReg _ _ => 19
  | .ldI _ => 20
  | .jpV0 _ => 21
  | .rnd _ _ => 22
  | .drw _ _ _ => 23
  | .skp _ => 24
  | .sknp _ => 25
  | .ldVxDT _ => 26
  | .ldVxK _ => 27
  | .ldDTVx _ => 28
  | .ldSTVx _ => 29
  | .addIVx _ => 30
  | .ldFVx _ => 31
  | .ldBVx _ => 32
  | .ldMemVx _ => 33
  | .ldVxMem _ => 34

/-! ## Listings (R98) -/

/-- A register operand's number, once the line has passed its check. -/
def regOf (r : Nat) : Reg := Fin.ofNat 16 r

/-- The instruction of a mnemonic and its operands; the operand shape selects it (R98). `SHR Vx` and `SHL Vx`
assemble with y = 0. -/
def instrOf : Mnemonic → List Operand → Option Instr
  | .cls, [] => some .cls
  | .ret, [] => some .ret
  | .jp, [.num nnn] => some (.jp (BitVec.ofNat 12 nnn))
  | .call, [.num nnn] => some (.call (BitVec.ofNat 12 nnn))
  | .se, [.v x, .num kk] => some (.seImm (regOf x) (BitVec.ofNat 8 kk))
  | .sne, [.v x, .num kk] => some (.sneImm (regOf x) (BitVec.ofNat 8 kk))
  | .se, [.v x, .v y] => some (.seReg (regOf x) (regOf y))
  | .ld, [.v x, .num kk] => some (.ldImm (regOf x) (BitVec.ofNat 8 kk))
  | .add, [.v x, .num kk] => some (.addImm (regOf x) (BitVec.ofNat 8 kk))
  | .ld, [.v x, .v y] => some (.ldReg (regOf x) (regOf y))
  | .or, [.v x, .v y] => some (.orReg (regOf x) (regOf y))
  | .and, [.v x, .v y] => some (.andReg (regOf x) (regOf y))
  | .xor, [.v x, .v y] => some (.xorReg (regOf x) (regOf y))
  | .add, [.v x, .v y] => some (.addReg (regOf x) (regOf y))
  | .sub, [.v x, .v y] => some (.subReg (regOf x) (regOf y))
  | .shr, [.v x] => some (.shr (regOf x) 0)
  | .shr, [.v x, .v y] => some (.shr (regOf x) (regOf y))
  | .subn, [.v x, .v y] => some (.subnReg (regOf x) (regOf y))
  | .shl, [.v x] => some (.shl (regOf x) 0)
  | .shl, [.v x, .v y] => some (.shl (regOf x) (regOf y))
  | .sne, [.v x, .v y] => some (.sneReg (regOf x) (regOf y))
  | .ld, [.i, .num nnn] => some (.ldI (BitVec.ofNat 12 nnn))
  | .jp, [.v _, .num nnn] => some (.jpV0 (BitVec.ofNat 12 nnn))
  | .rnd, [.v x, .num kk] => some (.rnd (regOf x) (BitVec.ofNat 8 kk))
  | .drw, [.v x, .v y, .num n] => some (.drw (regOf x) (regOf y) (Fin.ofNat 16 n))
  | .skp, [.v x] => some (.skp (regOf x))
  | .sknp, [.v x] => some (.sknp (regOf x))
  | .ld, [.v x, .dt] => some (.ldVxDT (regOf x))
  | .ld, [.v x, .k] => some (.ldVxK (regOf x))
  | .ld, [.dt, .v x] => some (.ldDTVx (regOf x))
  | .ld, [.st, .v x] => some (.ldSTVx (regOf x))
  | .add, [.i, .v x] => some (.addIVx (regOf x))
  | .ld, [.f, .v x] => some (.ldFVx (regOf x))
  | .ld, [.b, .v x] => some (.ldBVx (regOf x))
  | .ld, [.memI, .v x] => some (.ldMemVx (regOf x))
  | .ld, [.v x, .memI] => some (.ldVxMem (regOf x))
  | _, _ => none

/-- The word of a well-formed listing line; none for one that is not well formed. -/
def assemble (line : AsmLine) : Option Word :=
  if line.wellFormed then
    match line with
    | .instr m ops => (instrOf m ops).map encode
    | .dw value => some (BitVec.ofNat 16 value)
  else none

/-- One hexadecimal digit as R98 writes it. -/
def hexDigit (d : Nat) : String :=
  (["0", "1", "2", "3", "4", "5", "6", "7", "8", "9", "A", "B", "C", "D", "E", "F"])[d % 16]?.getD ""

/-- The last `digits` hexadecimal digits of a number, most significant first. -/
def hexDigits (value : Nat) : Nat → String
  | 0 => ""
  | digits + 1 => hexDigits (value / 16) digits ++ hexDigit value

/-- The text of a mnemonic (R93). -/
def Mnemonic.render : Mnemonic → String
  | .cls => "CLS" | .ret => "RET" | .jp => "JP" | .call => "CALL" | .se => "SE" | .sne => "SNE" | .ld => "LD"
  | .add => "ADD" | .or => "OR" | .and => "AND" | .xor => "XOR" | .sub => "SUB" | .shr => "SHR" | .subn => "SUBN"
  | .shl => "SHL" | .rnd => "RND" | .drw => "DRW" | .skp => "SKP" | .sknp => "SKNP"

/-- The hexadecimal digits a number of a field of this size is written with. -/
def digitsFor (limit : Nat) : Nat := if limit ≤ 16 then 1 else if limit ≤ 256 then 2 else 3

/-- The text of an operand (R98). -/
def Operand.render (limit : Nat) : Operand → String
  | .v r => "V" ++ hexDigit r
  | .num value => "0x" ++ hexDigits value (digitsFor limit)
  | .i => "I" | .dt => "DT" | .st => "ST" | .k => "K" | .f => "F" | .b => "B" | .memI => "[I]"

/-- The text of a line (R98): mnemonic, a space, operands separated by commas; `DW 0xhhhh`. -/
def AsmLine.render : AsmLine → String
  | .instr m [] => m.render
  | .instr m ops => m.render ++ " " ++ ",".intercalate (ops.map (Operand.render (m.numLimit ops)))
  | .dw value => "DW 0x" ++ hexDigits value 4

end Sys2Proof
end

