-- ==== Sys2Proof/Config.lean ====
section
/-! DEFINITION. What is fixed for the machine: the parameters of 00_scope.md R8, and the one free value the spec
leaves open (rand_u8, R10, R40). -/

namespace Sys2Proof.Config

/-- `MEM_SIZE` (R8): main memory has 4096 bytes. -/
@[simp] abbrev memSize : Nat := 4096

/-- `PROG_BASE` (R8): the reset value of pc and the address a ROM is loaded at. -/
@[simp] abbrev progBase : Nat := 0x200

/-- `ROM_MAX` (R8): 4096 - 512 bytes. -/
@[simp] abbrev romMax : Nat := 3584

/-- `FB_W` (R8): columns of the framebuffer. -/
@[simp] abbrev fbWidth : Nat := 64

/-- `FB_H` (R8): rows of the framebuffer. -/
@[simp] abbrev fbHeight : Nat := 32

/-- `GLYPH_BYTES` (R8): bytes of one glyph of the fontset. -/
@[simp] abbrev glyphBytes : Nat := 5

/-- `INSTR_BYTES` (R8): bytes of one instruction. -/
@[simp] abbrev instrBytes : Nat := 2

/-- FREE VALUE (R40, R183, decision D6): the byte the `n`-th `rand_u8()` returns, for every `n`.
It has no body, so no proof can see a value of it: a claim holds for every sequence of draws (log 2). -/
opaque randU8 : Nat → Byte

end Sys2Proof.Config
end

