-- ==== Sys2Proof/Machine/State.lean ====
section
/-! DEFINITION. The machine's state: every piece of state of 10_state.md, as plain data, and its value after reset
(R44); the reasons a step can stop. -/

namespace Sys2Proof.Machine

/-- Main memory as (address, byte) pairs; an address that is not listed reads its reset byte
(`Memory.resetByte`, R38, R60). The canonical form is `Memory.wf`. -/
abbrev Memory := List Host.Cell

/-- The framebuffer (R32): pixel (x, y) is entry y*64 + x. -/
abbrev Framebuffer := Vector Bool 2048

/-- The whole state (10_state.md, 00_scope.md R14's names in lower case). -/
structure State where
  /-- V0..VF (R20); VF is entry 15 (R22). -/
  v : Vector Byte 16
  /-- The index register I (R24): all 16 bits are state (R25). -/
  i : Word
  /-- The program counter (R26). -/
  pc : Word
  /-- SP, the number of stack entries in use, 0..16 (R28, D8). -/
  sp : Fin 17
  /-- STK[0..15] (R28). -/
  stk : Vector Word 16
  /-- The delay timer DT (R30). -/
  dt : Byte
  /-- The sound timer ST (R30). -/
  st : Byte
  /-- The framebuffer FB (R32). -/
  fb : Framebuffer
  /-- DF, draw_flag (R34). -/
  df : Bool
  /-- The keypad K[0..15] (R36). -/
  keys : Vector Bool 16
  /-- Main memory MEM (R38). -/
  mem : Memory
  /-- THE MODEL'S OWN: how many `rand_u8()` draws have been taken; it indexes `Config.randU8` (R40, D6, log 2). -/
  draws : Nat
  deriving DecidableEq, Repr

/-- The kinds of `Trap(kind)` that `step()` returns (60_exceptions.md R230; log 3). Each ends the run of
`Machine.step` (decision D3): safe, since a claim about a run that traps is unprovable, not false. The state the host
finds after a trap is `State.trapped` (R131). -/
inductive Fault
  /-- Raised by the fetch when pc + 1 ≥ 4096 (R122, R234). Safe. The kind's name is decision D2's. -/
  | memoryOutOfRange
  /-- Raised by the decoder on a word of R95 (R123, R231). Safe. -/
  | invalidOpcode
  /-- Raised by 2nnn CALL when SP = 16 (R143, R232). Safe. -/
  | stackOverflow
  /-- Raised by 00EE RET when SP = 0 (R141, R233). Safe. -/
  | stackUnderflow
  deriving DecidableEq, Repr

/-- Reasons to refuse an instruction. No meaning of this model refuses. -/
inductive Refusal
  /-- An instruction without a meaning yet: raised by no arm, since all 34 rows have theirs. Safe. -/
  | notModelled (mnemonic : String)
  deriving DecidableEq, Repr

/-- The state after `reset()` (R44, R270), which is also the state at construction (R271, D11). -/
def State.reset : State where
  v := Vector.replicate 16 0
  i := 0
  pc := 0x200
  sp := 0
  stk := Vector.replicate 16 0
  dt := 0
  st := 0
  fb := Vector.replicate 2048 false
  df := false
  keys := Vector.replicate 16 false
  mem := []
  draws := 0

end Sys2Proof.Machine
end

