-- ==== Sys2Proof/Machine/Ops.lean ====
section
/-! DEFINITION. The operations every instruction shares: memory, registers, the stack, the random draw, the fetch,
the driver's advance of pc, and raising a trap. -/

namespace Sys2Proof.Machine

/-- What a meaning and a step answer with. -/
abbrev StepOutcome := Host.Outcome State Fault Refusal

/-! ## Main memory (20_memory.md) -/

/-- The first eight glyphs of the fontset, 5 bytes each (R62). -/
def glyphs0To7 : List Byte := [
  0xF0, 0x90, 0x90, 0x90, 0xF0,  0x20, 0x60, 0x20, 0x20, 0x70,  0xF0, 0x10, 0xF0, 0x80, 0xF0,
  0xF0, 0x10, 0xF0, 0x10, 0xF0,  0x90, 0x90, 0xF0, 0x10, 0x10,  0xF0, 0x80, 0xF0, 0x10, 0xF0,
  0xF0, 0x80, 0xF0, 0x90, 0xF0,  0xF0, 0x10, 0x20, 0x40, 0x40]

/-- The last eight glyphs of the fontset (R62). -/
def glyphs8ToF : List Byte := [
  0xF0, 0x90, 0xF0, 0x90, 0xF0,  0xF0, 0x90, 0xF0, 0x10, 0xF0,  0xF0, 0x90, 0xF0, 0x90, 0x90,
  0xE0, 0x90, 0xE0, 0x90, 0xE0,  0xF0, 0x80, 0x80, 0x80, 0xF0,  0xE0, 0x90, 0x90, 0x90, 0xE0,
  0xF0, 0x80, 0xF0, 0x80, 0xF0,  0xF0, 0x80, 0xF0, 0x80, 0x80]

/-- The 80 bytes from address 0 (R62). -/
def fontset : List Byte := glyphs0To7 ++ glyphs8ToF

/-- What an unlisted address reads as: its content after reset, the fontset at 0x000..0x04F and 0 elsewhere
(R60, R44). -/
def Memory.resetByte (a : Nat) : Byte := fontset[a]?.getD 0

/-- The byte at an address (R38). -/
def Memory.read : Memory → Nat → Byte
  | [], a => Memory.resetByte a
  | (k, b) :: rest, a => if a = k then b else Memory.read rest a

/-- Writing a byte, keeping the canonical form: addresses rising, no entry equal to its reset byte. -/
def Memory.write : Memory → Nat → Byte → Memory
  | [], a, b => if b = Memory.resetByte a then [] else [(a, b)]
  | (k, c) :: rest, a, b =>
    if a < k then
      if b = Memory.resetByte a then (k, c) :: rest else (a, b) :: (k, c) :: rest
    else if a = k then
      if b = Memory.resetByte a then rest else (a, b) :: rest
    else (k, c) :: Memory.write rest a b

/-- The canonical form: every listed address exists and differs from its reset byte, and addresses rise strictly. -/
abbrev Memory.wf (m : Memory) : Prop :=
  (∀ c ∈ m, c.1 < Config.memSize ∧ c.2 ≠ Memory.resetByte c.1) ∧ m.Pairwise (fun c d => c.1 < d.1)

/-- Writing the bytes of a list at ascending addresses (R275's loop). -/
def Memory.writeBytes : Memory → Nat → List Byte → Memory
  | m, _, [] => m
  | m, a, b :: rest => Memory.writeBytes (Memory.write m a b) (a + 1) rest

/-- `MemRead(addr, 1)` (R15, R66): the address is taken modulo 4096; it never fails. -/
def State.memRead (s : State) (addr : Nat) : Byte := s.mem.read (addr % Config.memSize)

/-- `MemWrite(addr, 1, v)` (R15, R66). -/
def State.memWrite (s : State) (addr : Nat) (b : Byte) : State :=
  { s with mem := s.mem.write (addr % Config.memSize) b }

/-! ## Registers (10_state.md) -/

/-- `V[r]` (R20). -/
def State.getV (s : State) (r : Reg) : Byte := s.v[r]

/-- `V[r] <- b` (R20). -/
def State.setV (s : State) (r : Reg) (b : Byte) : State := { s with v := s.v.set r.val b r.isLt }

/-- `I <- w` (R24). -/
def State.setI (s : State) (w : Word) : State := { s with i := w }

/-- `pc <- w` (R26). -/
def State.setPc (s : State) (w : Word) : State := { s with pc := w }

/-- `DT <- b` (R30). -/
def State.setDt (s : State) (b : Byte) : State := { s with dt := b }

/-- `ST <- b` (R30). -/
def State.setSt (s : State) (b : Byte) : State := { s with st := b }

/-- `DF <- b` (R34). -/
def State.setDf (s : State) (b : Bool) : State := { s with df := b }

/-- The whole framebuffer replaced (R32). -/
def State.setFb (s : State) (fb : Framebuffer) : State := { s with fb := fb }

/-- `K[i] <- p` (R36). -/
def State.setKey (s : State) (i : Fin 16) (p : Bool) : State := { s with keys := s.keys.set i.val p i.isLt }

/-- The register VF (R22). -/
abbrev vf : Reg := 15

/-! ## The stack (R28) -/

/-- `STK[SP] <- w ; SP <- SP + 1`; none when SP = 16 (R143). -/
def State.push (s : State) (w : Word) : Option State :=
  if h : s.sp.val < 16 then
    some { s with stk := s.stk.set s.sp.val w h, sp := ⟨s.sp.val + 1, by omega⟩ }
  else none

/-- `STK[SP - 1]`, and the state with `SP <- SP - 1`; the entry keeps its value (R29); none when SP = 0 (R141). -/
def State.pop (s : State) : Option (Word × State) :=
  if h : 0 < s.sp.val then
    some (s.stk[s.sp.val - 1]'(by omega), { s with sp := ⟨s.sp.val - 1, by omega⟩ })
  else none

/-! ## The random source (R40) -/

/-- `rand_u8()`: the next free byte, and the state in which it has been drawn. -/
def State.takeDraw (s : State) : Byte × State := (Config.randU8 s.draws, { s with draws := s.draws + 1 })

/-! ## The step cycle (40_step_cycle.md) -/

/-- Step 1 of the contract: `DF <- false`, before anything else (R121). -/
def State.beginStep (s : State) : State := s.setDf false

/-- The fetch, steps 2 and 3 (R122): not masked; it traps when pc + 1 ≥ 4096, and reads big-endian (R68). -/
def fetch (s : State) : Except Fault Word :=
  if s.pc.toNat + 1 ≥ Config.memSize then .error .memoryOutOfRange
  else .ok (opcodeOf (s.mem.read s.pc.toNat) (s.mem.read (s.pc.toNat + 1)))

/-- Step 4 (R123): a word that is no instruction is `InvalidOpcode` (R231), whatever its class. -/
def decodeOp (op : Word) : Except Fault Instr :=
  match decodeWord op with
  | .ok i => .ok i
  | .error _ => .error .invalidOpcode

/-- Steps 2 to 4: the fetch check comes before the decode check (R238). -/
def fetchInstr (s : State) : Except Fault Instr :=
  match fetch s with
  | .ok op => decodeOp op
  | .error k => .error k

/-- The executor's report to the driver, the spec's `outcome` (R125). It is no state (R41). -/
inductive PcReport
  /-- The driver adds 2. -/
  | advance
  /-- The instruction wrote pc itself. -/
  | absolute
  /-- The key wait leaves pc at the instruction. -/
  | rearm
  deriving DecidableEq, Repr

/-- Step 6 (R126): the driver's advance, by the executor's report; then the step returns ok (R127). -/
def finish : PcReport → State → StepOutcome
  | .advance, s => .next (s.setPc (s.pc + 2))
  | .absolute, s => .next s
  | .rearm, s => .next s

/-- A skip (R126): 2 is added to pc when the condition holds, then the driver adds 2. -/
def skipIf (condition : Bool) (s : State) : StepOutcome :=
  finish .advance (if condition then s.setPc (s.pc + 2) else s)

/-- `raise Trap(kind)` (R15, R236): the step ends at once, and the kind goes to the host. -/
def trap (kind : Fault) : StepOutcome := .fault kind

/-- The state the host finds after a step that began in `s` and trapped: DF is cleared, nothing else differs
(R131). -/
def State.trapped (s : State) : State := s.beginStep

/-! ## Placing an instruction where it is fetched -/

/-- `op` stored where the next step fetches; where nothing can be fetched at pc, pc is first set to the load
address (log 11). -/
def State.placeOpcode (s : State) (op : Word) : State :=
  let s := if s.pc.toNat + 1 < Config.memSize then s else s.setPc 0x200
  (s.memWrite s.pc.toNat (highByte op)).memWrite (s.pc.toNat + 1) (lowByte op)

end Sys2Proof.Machine
end

