-- ==== Sys2Proof/Machine/Flags.lean ====
section
/-! DEFINITION. The flag computations (42_alu.md R161): each is a pure function giving (result, flag) from the
operand values read at the start; the result is written first and VF last (R23). -/

namespace Sys2Proof.Machine

/-- A flag is exactly 0 or 1 (R161). -/
def flagBit (c : Bool) : Byte := if c then 1 else 0

/-- 8xy4: the sum modulo 256 and the carry (R168). -/
def addCarry (a b : Byte) : Byte × Byte := (a + b, flagBit (a.toNat + b.toNat > 0xFF))

/-- 8xy5 and 8xy7: the difference modulo 256 and NOT borrow (R169, R171). -/
def subNotBorrow (a b : Byte) : Byte × Byte := (a - b, flagBit (a.toNat ≥ b.toNat))

/-- 8xy6: the logical right shift by one and the bit shifted out (R170). -/
def shiftRightOut (a : Byte) : Byte × Byte := (a >>> 1, flagBit (a.getLsbD 0))

/-- 8xyE: the left shift by one and the bit shifted out (R172). -/
def shiftLeftOut (a : Byte) : Byte × Byte := (a <<< 1, flagBit (a.getLsbD 7))

/-- `V[x] <- result`, then `VF <- flag` (R161): with x = 15 the flag stays. -/
def State.setResultFlag (s : State) (x : Reg) (rf : Byte × Byte) : State := (s.setV x rf.1).setV vf rf.2

end Sys2Proof.Machine
end

