-- ==== Sys2Proof/Machine/Alu.lean ====
section
/-! DEFINITION. Register load, arithmetic, bitwise and shift instructions (42_alu.md). -/

namespace Sys2Proof.Machine

/-- 6xkk LD Vx,kk (R162, D19). -/
def execLdImm (x : Reg) (kk : Byte) (s : State) : StepOutcome := finish .advance (s.setV x kk)

/-- 7xkk ADD Vx,kk (R163): modulo 256, VF untouched. -/
def execAddImm (x : Reg) (kk : Byte) (s : State) : StepOutcome := finish .advance (s.setV x (s.getV x + kk))

/-- 8xy0 LD Vx,Vy (R164). -/
def execLdReg (x y : Reg) (s : State) : StepOutcome := finish .advance (s.setV x (s.getV y))

/-- 8xy1 OR Vx,Vy (R165): VF is not reset. -/
def execOrReg (x y : Reg) (s : State) : StepOutcome := finish .advance (s.setV x (s.getV x ||| s.getV y))

/-- 8xy2 AND Vx,Vy (R166). -/
def execAndReg (x y : Reg) (s : State) : StepOutcome := finish .advance (s.setV x (s.getV x &&& s.getV y))

/-- 8xy3 XOR Vx,Vy (R167). -/
def execXorReg (x y : Reg) (s : State) : StepOutcome := finish .advance (s.setV x (s.getV x ^^^ s.getV y))

/-- 8xy4 ADD Vx,Vy (R168). -/
def execAddReg (x y : Reg) (s : State) : StepOutcome :=
  finish .advance (s.setResultFlag x (addCarry (s.getV x) (s.getV y)))

/-- 8xy5 SUB Vx,Vy (R169). -/
def execSubReg (x y : Reg) (s : State) : StepOutcome :=
  finish .advance (s.setResultFlag x (subNotBorrow (s.getV x) (s.getV y)))

/-- 8xy6 SHR Vx (R170): in place; `V[y]` is neither read nor written. -/
def execShr (x : Reg) (s : State) : StepOutcome :=
  finish .advance (s.setResultFlag x (shiftRightOut (s.getV x)))

/-- 8xy7 SUBN Vx,Vy (R171): the operands of SUB exchanged, the destination still `V[x]`. -/
def execSubnReg (x y : Reg) (s : State) : StepOutcome :=
  finish .advance (s.setResultFlag x (subNotBorrow (s.getV y) (s.getV x)))

/-- 8xyE SHL Vx (R172): in place; `V[y]` is neither read nor written. -/
def execShl (x : Reg) (s : State) : StepOutcome :=
  finish .advance (s.setResultFlag x (shiftLeftOut (s.getV x)))

end Sys2Proof.Machine
end

