-- ==== Sys2Proof/Machine/Operands.lean ====
section
/-! DEFINITION. Operand forms: the one data addressing mode (47_memory_transfer.md R220), the register range of
Fx55 and Fx65, and the quantities an instruction derives from a register's value. -/

namespace Sys2Proof.Machine

/-- `EA(k) = (I + k) & 0xFFF` (R220). -/
def State.ea (s : State) (k : Nat) : Nat := (s.i.toNat + k) % Config.memSize

/-- The registers V0..Vx in ascending order, inclusive of x (R222, R223). -/
def regsUpTo (x : Reg) : List Reg := (List.finRange 16).take (x.val + 1)

/-- A 12-bit address zero-extended to 16 bits (R92, R180). -/
def zext (nnn : Addr) : Word := nnn.setWidth 16

/-- The target `(nnn + V[0]) & 0xFFF` of Bnnn (R144). -/
def offsetTarget (nnn : Addr) (offset : Byte) : Word :=
  BitVec.ofNat 16 ((nnn.toNat + offset.toNat) % Config.memSize)

/-- `(V[x] & 0x0F) * 5`: where the glyph of a digit starts (R182, R62). -/
def glyphAddress (digit : Byte) : Word := BitVec.ofNat 16 (digit.toNat % 16 * Config.glyphBytes)

/-- The key a register names, `V[x] & 0x0F` (R200). -/
def keyIndex (b : Byte) : Fin 16 := ⟨b.toNat % 16, Nat.mod_lt _ (by decide)⟩

/-- Whether the key a register names is pressed (R200, R201). -/
def State.keyNamed (s : State) (x : Reg) : Bool := s.keys[keyIndex (s.getV x)]

/-- The lowest pressed key (R202); none when no key is pressed. -/
def State.lowestKey (s : State) : Option (Fin 16) := (List.finRange 16).find? fun k => s.keys[k]

/-- Origin column `V[x] & 63` (R192). -/
def originColumn (b : Byte) : Nat := b.toNat % Config.fbWidth

/-- Origin row `V[y] & 31` (R192). -/
def originRow (b : Byte) : Nat := b.toNat % Config.fbHeight

end Sys2Proof.Machine
end

