-- ==== Sys2Proof/Machine/Control.lean ====
section
/-! DEFINITION. Control transfer (41_control_flow.md). A meaning is the executor's rule with the driver's advance
(R126) after it; pc holds the instruction's own address (R140). -/

namespace Sys2Proof.Machine

/-- 00EE RET (R141): no 2 is added to the popped address (90_conflicts.md C1). -/
def execRet (s : State) : StepOutcome :=
  match s.pop with
  | none => trap .stackUnderflow
  | some (target, s') => finish .absolute (s'.setPc target)

/-- 1nnn JP nnn (R142). -/
def execJp (nnn : Addr) (s : State) : StepOutcome := finish .absolute (s.setPc (zext nnn))

/-- 2nnn CALL nnn (R143): pushes pc + 2. -/
def execCall (nnn : Addr) (s : State) : StepOutcome :=
  match s.push (s.pc + 2) with
  | none => trap .stackOverflow
  | some s' => finish .absolute (s'.setPc (zext nnn))

/-- Bnnn JP V0,nnn (R144). -/
def execJpV0 (nnn : Addr) (s : State) : StepOutcome := finish .absolute (s.setPc (offsetTarget nnn (s.getV 0)))

/-- 3xkk SE Vx,kk (R145; the condition is GK1's, log 7). -/
def execSeImm (x : Reg) (kk : Byte) (s : State) : StepOutcome := skipIf (s.getV x == kk) s

/-- 4xkk SNE Vx,kk (R146; log 7). -/
def execSneImm (x : Reg) (kk : Byte) (s : State) : StepOutcome := skipIf (s.getV x != kk) s

/-- 5xy0 SE Vx,Vy (R147; log 7). -/
def execSeReg (x y : Reg) (s : State) : StepOutcome := skipIf (s.getV x == s.getV y) s

/-- 9xy0 SNE Vx,Vy (R148; log 7). -/
def execSneReg (x y : Reg) (s : State) : StepOutcome := skipIf (s.getV x != s.getV y) s

end Sys2Proof.Machine
end

