-- ==== Sys2Proof/Machine/Display.lean ====
section
/-! DEFINITION. The display buffer with its three entry points `clear`, `blit`, `pixel` (44_display.md R191), and the
instructions 00E0 and Dxyn. -/

namespace Sys2Proof.Machine

/-- `clear()`: every pixel 0 (R190, R191). -/
def Framebuffer.clear : Framebuffer := Vector.replicate 2048 false

/-- The index `py*64 + px` of a pixel inside the plane; none for one that is clipped (R192, R82). -/
def pixelIndex (px py : Nat) : Option (Fin 2048) :=
  if h : px < 64 ∧ py < 32 then some ⟨py * 64 + px, by omega⟩ else none

/-- `pixel(x, y)` (R191); false outside the plane, where no pixel is. -/
def Framebuffer.pixel (fb : Framebuffer) (px py : Nat) : Bool :=
  match pixelIndex px py with
  | some idx => fb[idx]
  | none => false

/-- A set sprite bit lands on the pixel (px, py) (R192): a clipped one is skipped; a lit pixel is a collision;
the pixel is flipped. The pair is the plane and whether a collision has happened. -/
def flipPixel (px py : Nat) (d : Framebuffer × Bool) : Framebuffer × Bool :=
  match pixelIndex px py with
  | some idx => (d.1.set idx.val (!d.1[idx]) idx.isLt, d.2 || d.1[idx])
  | none => d

/-- The inner loop of R192: the bits of one row byte from b to 7, bit b of the row being bit 7 - b of the byte.
`left` counts the bits still to go. -/
def blitBits (vx py : Nat) (row : Byte) : Nat → Framebuffer × Bool → Framebuffer × Bool
  | 0, d => d
  | left + 1, d =>
    let b := 7 - left
    blitBits vx py row left (if row.getLsbD (7 - b) then flipPixel (vx + b) py d else d)

/-- The outer loop of R192: rows top to bottom, the first at row `py`. -/
def blitRows (vx : Nat) : Nat → List Byte → Framebuffer × Bool → Framebuffer × Bool
  | _, [], d => d
  | py, row :: rest, d => blitRows vx (py + 1) rest (blitBits vx py row 8 d)

/-- `blit(x, y, bytes) → collision` (R191): XOR with clipping; the new plane and the collision flag. -/
def Framebuffer.blit (fb : Framebuffer) (vx vy : Nat) (rows : List Byte) : Framebuffer × Bool :=
  blitRows vx vy rows (fb, false)

/-- The sprite's n row bytes, `MemRead((I + r) & 0xFFF)` for r in 0..n-1 (R192). -/
def State.spriteRows (s : State) (n : Nat) : List Byte := (List.range n).map fun r => s.memRead (s.ea r)

/-- The plane and the collision flag after a sprite of n rows at the origin `V[x] & 63`, `V[y] & 31` (R192); both
registers are read before VF is written (R193, D5). -/
def State.drawSprite (s : State) (x y : Reg) (n : Nat) : Framebuffer × Bool :=
  s.fb.blit (originColumn (s.getV x)) (originRow (s.getV y)) (s.spriteRows n)

/-- 00E0 CLS (R190). -/
def execCls (s : State) : StepOutcome := finish .advance ((s.setFb Framebuffer.clear).setDf true)

/-- The new plane stored, VF the collision flag, DF set (R192). -/
def State.showSprite (s : State) (d : Framebuffer × Bool) : State :=
  ((s.setFb d.1).setV vf (flagBit d.2)).setDf true

/-- Dxyn DRW Vx,Vy,n (R192 to R195). -/
def execDrw (x y : Reg) (n : Fin 16) (s : State) : StepOutcome :=
  finish .advance (s.showSprite (s.drawSprite x y n.val))

end Sys2Proof.Machine
end

