-- ==== Sys2Proof/Machine/IndexRandom.lean ====
section
/-! DEFINITION. Index register and random instructions (43_index_random.md). -/

namespace Sys2Proof.Machine

/-- Annn LD I,nnn (R180). -/
def execLdI (nnn : Addr) (s : State) : StepOutcome := finish .advance (s.setI (zext nnn))

/-- Fx1E ADD I,Vx (R181): wraps at 16 bits, VF unchanged. -/
def execAddIVx (x : Reg) (s : State) : StepOutcome :=
  finish .advance (s.setI (s.i + (s.getV x).setWidth 16))

/-- Fx29 LD F,Vx (R182). -/
def execLdFVx (x : Reg) (s : State) : StepOutcome := finish .advance (s.setI (glyphAddress (s.getV x)))

/-- `V[x] <- r & kk` for a draw r (R183). -/
def storeMasked (x : Reg) (kk : Byte) (d : Byte × State) : State := d.2.setV x (d.1 &&& kk)

/-- Cxkk RND Vx,kk (R183): one fresh draw (D6, log 2). -/
def execRnd (x : Reg) (kk : Byte) (s : State) : StepOutcome := finish .advance (storeMasked x kk s.takeDraw)

end Sys2Proof.Machine
end

