-- ==== Sys2Proof/Machine/Keypad.lean ====
section
/-! DEFINITION. Keypad instructions (45_keypad.md). The keypad is read at the step that runs them (R204). -/

namespace Sys2Proof.Machine

/-- Ex9E SKP Vx (R200). -/
def execSkp (x : Reg) (s : State) : StepOutcome := skipIf (s.keyNamed x) s

/-- ExA1 SKNP Vx (R201). -/
def execSknp (x : Reg) (s : State) : StepOutcome := skipIf (!s.keyNamed x) s

/-- Fx0A LD Vx,K (R202): the lowest pressed key, or pc stays at the instruction and nothing is written (R203). -/
def execLdVxK (x : Reg) (s : State) : StepOutcome :=
  match s.lowestKey with
  | some k => finish .advance (s.setV x (BitVec.ofNat 8 k.val))
  | none => finish .rearm s

end Sys2Proof.Machine
end

