-- ==== Sys2Proof/Machine/Timers.lean ====
section
/-! DEFINITION. Timer instructions (46_timers.md), and the decrement of one timer (60_exceptions.md R250). -/

namespace Sys2Proof.Machine

/-- Fx07 LD Vx,DT (R210). -/
def execLdVxDT (x : Reg) (s : State) : StepOutcome := finish .advance (s.setV x s.dt)

/-- Fx15 LD DT,Vx (R211). -/
def execLdDTVx (x : Reg) (s : State) : StepOutcome := finish .advance (s.setDt (s.getV x))

/-- Fx18 LD ST,Vx (R212). -/
def execLdSTVx (x : Reg) (s : State) : StepOutcome := finish .advance (s.setSt (s.getV x))

/-- One tick of one timer (R250): down by 1 while above 0, saturating at 0 (R30). -/
def tickDown (t : Byte) : Byte := if t = 0 then 0 else t - 1

end Sys2Proof.Machine
end

