-- ==== Sys2Proof/Machine/Transfer.lean ====
section
/-! DEFINITION. Memory transfer instructions (47_memory_transfer.md). None of them changes I. -/

namespace Sys2Proof.Machine

/-- The decimal digits of a byte: hundreds, tens, ones (R221). -/
def bcdDigits (b : Byte) : Byte × Byte × Byte :=
  (BitVec.ofNat 8 (b.toNat / 100), BitVec.ofNat 8 (b.toNat / 10 % 10), BitVec.ofNat 8 (b.toNat % 10))

/-- Three bytes written at I, I + 1, I + 2 (R221). -/
def State.storeDigits (s : State) (d : Byte × Byte × Byte) : State :=
  ((s.memWrite (s.ea 0) d.1).memWrite (s.ea 1) d.2.1).memWrite (s.ea 2) d.2.2

/-- Fx33 LD B,Vx (R221). -/
def execLdBVx (x : Reg) (s : State) : StepOutcome := finish .advance (s.storeDigits (bcdDigits (s.getV x)))

/-- `MemWrite((I + r) & 0xFFF, 1, V[r])` for each register of the list in order (R222). -/
def State.storeRegs (s : State) (rs : List Reg) : State :=
  rs.foldl (fun t r => t.memWrite (t.ea r.val) (t.getV r)) s

/-- Fx55 LD [I],Vx (R222): V0..Vx inclusive. -/
def execLdMemVx (x : Reg) (s : State) : StepOutcome := finish .advance (s.storeRegs (regsUpTo x))

/-- `V[r] <- MemRead((I + r) & 0xFFF, 1)` for each register of the list in order (R223). -/
def State.loadRegs (s : State) (rs : List Reg) : State :=
  rs.foldl (fun t r => t.setV r (t.memRead (t.ea r.val))) s

/-- Fx65 LD Vx,[I] (R223): V0..Vx inclusive. -/
def execLdVxMem (x : Reg) (s : State) : StepOutcome := finish .advance (s.loadRegs (regsUpTo x))

end Sys2Proof.Machine
end

