-- ==== Sys2Proof/Machine/Step.lean ====
section
/-! DEFINITION. One `step()` (40_step_cycle.md R120). -/

namespace Sys2Proof.Machine

/-- R120's contract: clear DF, fetch, decode, execute with the driver's advance, return ok; or the trap. -/
def step (s : State) : Host.Outcome State Fault Refusal :=
  match fetchInstr s.beginStep with
  | .ok i => exec i s.beginStep
  | .error kind => trap kind

/-- `s` with an opcode-table word stored where the next step fetches (log 11). -/
def State.withFetchWord (s : State) (nbits w : Nat) : State := s.placeOpcode (BitVec.ofNat 16 (w % 2 ^ nbits))

end Sys2Proof.Machine
end

