-- ==== Sys2Proof/Machine/HostOps.lean ====
section
/-! DEFINITION. The block's whole interface (00_scope.md R7): each operation is one atomic transaction on the state,
and the host calls them one after another in any order. A list of operations is one schedule of steps, ticks and key
presses (R10: `tick_schedule` D7, host key schedule D18). -/

namespace Sys2Proof.Machine

/-- The operations of R7 with their arguments. `set_key`'s index is 0..15 (R252, D17). -/
inductive HostOp
  | reset
  | loadRom (bytes : List Byte)
  | step
  | tickTimers
  | setKey (index : Fin 16) (pressed : Bool)
  | framebuffer
  | soundActive
  | drawFlag
  | clearDrawFlag
  deriving DecidableEq, Repr

/-- What an operation returns (R7). `refused` stands only for a step without a meaning, which this model has not. -/
inductive OpResult
  | none
  | ok
  | tooLarge
  | trapped (kind : Fault)
  | view (pixels : Framebuffer)
  | bool (b : Bool)
  | refused (r : Refusal)
  deriving DecidableEq, Repr

/-- `reset()` (R270): every field at its reset value (R44). The random source is not constrained (R40), so the draw
counter goes on and later draws are fresh (log 2). -/
def State.resetOp (s : State) : State := { State.reset with draws := s.draws }

/-- `load_rom(bytes)` (R275, D10): more than 3584 bytes write nothing. -/
def State.loadRom (s : State) (bytes : List Byte) : State × OpResult :=
  if bytes.length > Config.romMax then (s, .tooLarge)
  else ({ s with mem := s.mem.writeBytes Config.progBase bytes }, .ok)

/-- `step()` as the host sees it (R7, R127, R131): a trap clears DF and changes nothing else. -/
def State.stepOp (s : State) : State × OpResult :=
  match step s with
  | .next t => (t, .ok)
  | .fault kind => (s.trapped, .trapped kind)
  | .refused r => (s, .refused r)

/-- `tick_timers()` (R250): both timers, nothing else. -/
def State.tickTimers (s : State) : State := (s.setDt (tickDown s.dt)).setSt (tickDown s.st)

/-- `sound_active()` (R256). -/
def State.soundActive (s : State) : Bool := s.st.toNat > 0

/-- One operation: the state after it and what it returns. -/
def perform : HostOp → State → State × OpResult
  | .reset, s => (s.resetOp, .none)
  | .loadRom bytes, s => s.loadRom bytes
  | .step, s => s.stepOp
  | .tickTimers, s => (s.tickTimers, .none)
  | .setKey index pressed, s => (s.setKey index pressed, .none)
  | .framebuffer, s => (s, .view s.fb)
  | .soundActive, s => (s, .bool s.soundActive)
  | .drawFlag, s => (s, .bool s.df)
  | .clearDrawFlag, s => (s.setDf false, .none)

/-- A schedule of operations, one after another (R7, R74): the last state and the results in order. -/
def performAll : List HostOp → State → State × List OpResult
  | [], s => (s, [])
  | op :: rest, s =>
    let (s', r) := perform op s
    let (t, rs) := performAll rest s'
    (t, r :: rs)

end Sys2Proof.Machine
end

