-- ==== Sys2Proof/Safety.lean ====
section
/-! DEFINITION. The terms claims are made in: what an instruction leaves unchanged, the invariants of 10_state.md
R45, the states the operations of R7 reach, a run without a trap, and the tables of who writes what (R21, R140). -/

namespace Sys2Proof.Machine

/-- The parts of the state, one per field. -/
inductive Part
  | v | i | pc | sp | stk | dt | st | fb | df | keys | mem | draws
  deriving DecidableEq, Repr

/-- A part reads the same in two states; memory through the read of one byte. -/
def Part.same (s t : State) : Part → Prop
  | .v => ∀ r, t.getV r = s.getV r
  | .i => t.i = s.i
  | .pc => t.pc = s.pc
  | .sp => t.sp = s.sp
  | .stk => ∀ k : Fin 16, t.stk[k] = s.stk[k]
  | .dt => t.dt = s.dt
  | .st => t.st = s.st
  | .fb => t.fb = s.fb
  | .df => t.df = s.df
  | .keys => t.keys = s.keys
  | .mem => ∀ a, t.memRead a = s.memRead a
  | .draws => t.draws = s.draws

/-- THE FRAME: from `s` to `t` nothing changed outside the listed parts. -/
def OnlyChanges (parts : List Part) (s t : State) : Prop := ∀ p, p ∉ parts → p.same s t

/-- The invariants of R45 that the fields' types do not carry already, with the canonical form of memory. -/
structure State.Inv (s : State) : Prop where
  /-- memory is in canonical form -/
  mem : s.mem.wf
  /-- `pc ≤ 0x1002` (R27) -/
  pc : s.pc.toNat ≤ 0x1002
  /-- every stack entry is at most 0x1000 (R29) -/
  stk : ∀ k : Fin 16, s.stk[k].toNat ≤ 0x1000

/-- The states the operations of R7 reach from construction (R45, R271). -/
inductive Reachable : State → Prop
  | construct : Reachable State.reset
  | operation (op : HostOp) {s : State} : Reachable s → Reachable (perform op s).1

/-- A SAFE RUN: k steps none of which trapped (R237: "no step trapped"). -/
def SafeRun (k : Nat) (s : State) : Prop := ∃ t, Host.Core.run Sys2Proof.core k s = .next t

/-- A set bit of the sprite that `Dxyn` reads at I lies over the pixel (px, py) (R192): the origin is
`V[x] mod 64`, `V[y] mod 32`, the sprite is 8 columns wide and n rows tall, and bit 7 of a row is its leftmost
pixel. It says nothing of the plane's edges. -/
def State.SpriteCovers (s : State) (x y : Reg) (n px py : Nat) : Prop :=
  let ox := (s.getV x).toNat % 64
  let oy := (s.getV y).toNat % 32
  (ox ≤ px ∧ px < ox + 8) ∧ (oy ≤ py ∧ py < oy + n) ∧
    (s.memRead (s.i.toNat + (py - oy))).getLsbD (7 - (px - ox)) = true

/-- A set bit of the sprite lies inside the plane over a pixel that is lit (R195: a collision). -/
def State.SpriteCollides (s : State) (x y : Reg) (n : Nat) : Prop :=
  ∃ px py, (px < 64 ∧ py < 32) ∧ s.SpriteCovers x y n px py ∧ s.fb.pixel px py = true

/-- The registers an instruction may write: the W entries of R21's table. -/
def writesRegs : Instr → List Reg
  | .ldImm x _ | .addImm x _ | .ldReg x _ | .orReg x _ | .andReg x _ | .xorReg x _ => [x]
  | .addReg x _ | .subReg x _ | .shr x _ | .subnReg x _ | .shl x _ => [x, vf]
  | .rnd x _ | .ldVxDT x | .ldVxK x => [x]
  | .drw _ _ _ => [vf]
  | .ldVxMem x => regsUpTo x
  | .cls | .ret | .jp _ | .call _ | .seImm _ _ | .sneImm _ _ | .seReg _ _ | .sneReg _ _ | .ldI _ | .jpV0 _ => []
  | .skp _ | .sknp _ | .ldDTVx _ | .ldSTVx _ | .addIVx _ | .ldFVx _ | .ldBVx _ | .ldMemVx _ => []

/-- The parts beside V, pc and DF that an instruction may change: I (R24), SP and STK (R28), the timers (R213,
R128), the framebuffer (R32), memory (R38), the model's draw counter. No instruction writes the keypad (R36). -/
def mayChange : Instr → List Part
  | .ret => [.sp]
  | .call _ => [.sp, .stk]
  | .cls | .drw _ _ _ => [.fb]
  | .ldI _ | .addIVx _ | .ldFVx _ => [.i]
  | .rnd _ _ => [.draws]
  | .ldDTVx _ => [.dt]
  | .ldSTVx _ => [.st]
  | .ldBVx _ | .ldMemVx _ => [.mem]
  | .jp _ | .seImm _ _ | .sneImm _ _ | .seReg _ _ | .sneReg _ _ | .jpV0 _ | .skp _ | .sknp _ => []
  | .ldImm _ _ | .addImm _ _ | .ldReg _ _ | .orReg _ _ | .andReg _ _ | .xorReg _ _ => []
  | .addReg _ _ | .subReg _ _ | .shr _ _ | .subnReg _ _ | .shl _ _ => []
  | .ldVxDT _ | .ldVxK _ | .ldVxMem _ => []

/-- The addresses an instruction stores to from `s`: three for Fx33 (R221), one per register for Fx55 (R222), by the
addressing the meanings use (R220). -/
def storedTo : Instr → State → List Nat
  | .ldBVx _, s => [s.ea 0, s.ea 1, s.ea 2]
  | .ldMemVx x, s => (regsUpTo x).map fun r => s.ea r.val
  | .cls, _ | .ret, _ | .jp _, _ | .call _, _ | .seImm _ _, _ | .sneImm _ _, _ | .seReg _ _, _ | .sneReg _ _, _ => []
  | .ldImm _ _, _ | .addImm _ _, _ | .ldReg _ _, _ | .orReg _ _, _ | .andReg _ _, _ | .xorReg _ _, _ => []
  | .addReg _ _, _ | .subReg _ _, _ | .shr _ _, _ | .subnReg _ _, _ | .shl _ _, _ | .rnd _ _, _ => []
  | .ldI _, _ | .jpV0 _, _ | .drw _ _ _, _ | .skp _, _ | .sknp _, _ | .addIVx _, _ | .ldFVx _, _ => []
  | .ldVxDT _, _ | .ldVxK _, _ | .ldDTVx _, _ | .ldSTVx _, _ | .ldVxMem _, _ => []

/-- The stack entries an instruction writes from `s`: STK[SP] for CALL (R143), none for any other. -/
def pushedAt : Instr → State → List Nat
  | .call _, s => [s.sp.val]
  | .cls, _ | .ret, _ | .jp _, _ | .seImm _ _, _ | .sneImm _ _, _ | .seReg _ _, _ | .sneReg _ _, _ => []
  | .ldImm _ _, _ | .addImm _ _, _ | .ldReg _ _, _ | .orReg _ _, _ | .andReg _ _, _ | .xorReg _ _, _ => []
  | .addReg _ _, _ | .subReg _ _, _ | .shr _ _, _ | .subnReg _ _, _ | .shl _ _, _ | .rnd _ _, _ => []
  | .ldI _, _ | .jpV0 _, _ | .drw _ _ _, _ | .skp _, _ | .sknp _, _ | .addIVx _, _ | .ldFVx _, _ => []
  | .ldVxDT _, _ | .ldVxK _, _ | .ldDTVx _, _ | .ldSTVx _, _ | .ldBVx _, _ | .ldMemVx _, _ | .ldVxMem _, _ => []

end Sys2Proof.Machine
end

