-- ==== Sys2Proof/Certificates/Slice0/Obligations.lean ====
section
/-! DEFINITION. The statements for the provers. Each docstring names the rules of spec/ it formalises, and where a
clause rests on a choice of the spec's writer (D<n>, GK1) or of the model (log <n>). -/

open Sys2Proof Sys2Proof.Machine

/-! ## Encoding -/

/-- 30_encoding.md section 4: no bit of an encoding is dropped, for every instruction with every operand. -/
def Obligations.DecodeOfEncodeIsIdentity : Prop :=
  ∀ i : Instr, decodeWord (encode i) = .ok i

/-- 30_encoding.md section 4: a word has one meaning; the instruction it decodes to encodes back to it, the ignored
`y` of the shifts included (R96). -/
def Obligations.EncodeOfDecodeIsIdentity : Prop :=
  ∀ (op : Word) (i : Instr), decodeWord op = .ok i → encode i = op

/-- R94: the rows of R93 are pairwise disjoint, a word is an instruction exactly when it matches a row, and then it is
the instruction of that row. -/
def Obligations.DecodingFollowsTheOpcodeMap : Prop :=
  (∀ (op : Word), ∀ r ∈ opcodeRows, ∀ r' ∈ opcodeRows, r.Matches op → r'.Matches op → r = r') ∧
  (∀ (op : Word), (∃ i, decodeWord op = .ok i) ↔ ∃ r ∈ opcodeRows, r.Matches op) ∧
  (∀ (op : Word) (i : Instr), decodeWord op = .ok i → ∃ r ∈ opcodeRows, r.Matches op ∧ r.number = i.rowNumber)

/-- 30_encoding.md section 5: the invalid words are exactly the six classes of its table, each rejected under its
name (exact matching of every digit is decision D4, log 8). -/
def Obligations.InvalidWordsAreTheSixClasses : Prop :=
  ∀ op : Word,
    (decodeWord op = .error .machineCall ↔ op.toNat < 0x1000 ∧ op ≠ 0x00E0#16 ∧ op ≠ 0x00EE#16) ∧
    (decodeWord op = .error .seNibble ↔ op.toNat / 4096 = 5 ∧ op.toNat % 16 ≠ 0) ∧
    (decodeWord op = .error .aluNibble ↔
      op.toNat / 4096 = 8 ∧ (8 ≤ op.toNat % 16 ∧ op.toNat % 16 ≤ 13 ∨ op.toNat % 16 = 15)) ∧
    (decodeWord op = .error .sneNibble ↔ op.toNat / 4096 = 9 ∧ op.toNat % 16 ≠ 0) ∧
    (decodeWord op = .error .keyByte ↔ op.toNat / 4096 = 14 ∧ op.toNat % 256 ∉ [0x9E, 0xA1]) ∧
    (decodeWord op = .error .miscByte ↔
      op.toNat / 4096 = 15 ∧ op.toNat % 256 ∉ [0x07, 0x0A, 0x15, 0x18, 0x1E, 0x29, 0x33, 0x55, 0x65]) ∧
    decodeWord op ≠ .error .truncated

/-- Words written out from the patterns of R93, one of each format (30_encoding.md section 2). -/
def Obligations.WordsOfEachFormat : Prop :=
  decodeTableWord 16 0x00EE = some .ret ∧ decodeTableWord 16 0x2206 = some (.call 0x206) ∧
  decodeTableWord 16 0x71FF = some (.addImm 1 0xFF) ∧ decodeTableWord 16 0x8125 = some (.subReg 1 2) ∧
  decodeTableWord 16 0xD0F3 = some (.drw 0 15 3) ∧ decodeTableWord 16 0xFA65 = some (.ldVxMem 10) ∧
  decodeTableWord 16 0x5341 = none

/-- 30_encoding.md section 6: the listing of an instruction assembles to its word; `SHR Vx` and `SHL Vx` assemble with
y = 0; `DW` gives the word itself. -/
def Obligations.ListingAssemblesToTheWord : Prop :=
  (∀ i : Instr, assemble i.listing = some (encode i)) ∧
  (∀ x : Reg, assemble (.instr .shr [.v x]) = some (encode (.shr x 0)) ∧
    assemble (.instr .shl [.v x]) = some (encode (.shl x 0))) ∧
  (∀ op : Word, assemble (.dw op.toNat) = some op)

/-! ## The step cycle -/

/-- 40_step_cycle.md section 1: a step runs exactly the instruction that the two bytes at pc encode, the first byte the
high one, in the state with DF cleared; the driver's advance of pc is part of `exec`. -/
def Obligations.StepRunsTheDecodedInstruction : Prop :=
  ∀ (s : State) (i : Instr), s.pc.toNat + 1 < 4096 →
    decodeWord (BitVec.ofNat 16 (256 * (s.memRead s.pc.toNat).toNat + (s.memRead (s.pc.toNat + 1)).toNat)) = .ok i →
    step s = exec i { s with df := false }

/-- 60_exceptions.md section 1: the four traps of `step()` and exactly when each is returned, the fetch check before
the decode check before the executor's. The name of the fetch trap is decision D2 (log 4). -/
def Obligations.StepTrapsExactlyWhenListed : Prop :=
  ∀ s : State,
    (step s = .fault .memoryOutOfRange ↔ s.pc.toNat + 1 ≥ 4096) ∧
    (step s = .fault .invalidOpcode ↔ s.pc.toNat + 1 < 4096 ∧ ∀ i, decodeWord
      (BitVec.ofNat 16 (256 * (s.memRead s.pc.toNat).toNat + (s.memRead (s.pc.toNat + 1)).toNat)) ≠ .ok i) ∧
    (step s = .fault .stackOverflow ↔ (∃ nnn, fetchInstr s = .ok (.call nnn)) ∧ s.sp.val = 16) ∧
    (step s = .fault .stackUnderflow ↔ fetchInstr s = .ok .ret ∧ s.sp.val = 0)

/-- 40_step_cycle.md section 2: a trapping step clears DF and changes nothing else, and the next step returns the same
trap. That all four traps leave the state so is decision D3, that DF is cleared is D23 (log 3). -/
def Obligations.TrapLeavesAllButTheDrawFlag : Prop :=
  ∀ (s t : State) (k : Fault), perform .step s = (t, .trapped k) →
    t = { s with df := false } ∧ perform .step t = (t, .trapped k)

/-- 30_encoding.md section 4: every instruction of the table has its effect; no step is refused. -/
def Obligations.NoStepIsRefused : Prop :=
  ∀ (s : State) (r : Refusal), step s ≠ .refused r ∧ ∀ i, exec i s ≠ .refused r

/-- 10_state.md section 12: a step keeps `pc ≤ 0x1002`, every stack entry at most 0x1000, and the canonical form of
memory. From every state that has them, reachable or not. -/
def Obligations.StepKeepsTheInvariants : Prop :=
  ∀ s t : State, s.Inv → step s = .next t → t.Inv

/-- 10_state.md section 11: the reset state has the invariants. -/
def Obligations.ResetHasTheInvariants : Prop := State.reset.Inv

/-- 10_state.md section 12: the invariants hold in every state the operations of the interface reach, in any order,
from construction. That construction leaves the reset state is decision D11 (log 11), the canonical form of memory is
the model's (log 9). -/
def Obligations.ReachableStatesHaveTheInvariants : Prop :=
  ∀ s : State, Reachable s → s.Inv

/-- 10_state.md section 8: after a step, DF is true exactly when it ran a 00E0 or a Dxyn. -/
def Obligations.DrawFlagTellsThatTheStepDrew : Prop :=
  ∀ (s t : State) (i : Instr), fetchInstr s = .ok i → step s = .next t →
    (t.df = true ↔ i = .cls ∨ ∃ x y n, i = .drw x y n)

/-- 10_state.md section 1 (the table of reads and writes) and 41_control_flow.md's template: a step writes no register
but those its instruction's row names, no byte of memory but those it stores to, no stack entry but the one it pushes,
and no other part of the state but the instruction's own, pc and DF. That RET leaves the popped entry its value is
decision D22 (log 14). Memory in canonical form (log 9) is a premise of the clause on the bytes alone. -/
def Obligations.StepWritesOnlyWhatItsInstructionNames : Prop :=
  ∀ (s t : State) (i : Instr), fetchInstr s = .ok i → step s = .next t →
    (∀ r, r ∉ writesRegs i → t.getV r = s.getV r) ∧
    (s.mem.wf → ∀ a, a % 4096 ∉ storedTo i s → t.memRead a = s.memRead a) ∧
    (∀ k : Fin 16, k.val ∉ pushedAt i s → t.stk[k] = s.stk[k]) ∧
    OnlyChanges (.v :: .pc :: .df :: mayChange i) s t

/-- R128: a step does not tick the timers; DT and ST change only through Fx15 and Fx18. -/
def Obligations.StepsDoNotTickTheTimers : Prop :=
  ∀ s t : State, step s = .next t →
    (t.dt ≠ s.dt → ∃ x, fetchInstr s = .ok (.ldDTVx x)) ∧ (t.st ≠ s.st → ∃ x, fetchInstr s = .ok (.ldSTVx x))

/-- 10_state.md section 4, 90_conflicts.md C2: an even pc stays even, but for JP, CALL, JP V0 and RET. -/
def Obligations.PcStaysEvenButForJumps : Prop :=
  ∀ (s t : State) (i : Instr), fetchInstr s = .ok i → step s = .next t → s.pc.toNat % 2 = 0 →
    i ≠ .ret → (∀ nnn, i ≠ .jp nnn ∧ i ≠ .call nnn ∧ i ≠ .jpV0 nnn) → t.pc.toNat % 2 = 0

/-- 70_reset_and_hazards.md section 4 (the end of a run): a jump to its own address leaves the whole state unchanged
but for DF being cleared. -/
def Obligations.JumpToSelfChangesOnlyTheDrawFlag : Prop :=
  ∀ (s : State) (nnn : Addr), fetchInstr s = .ok (.jp nnn) → nnn.toNat = s.pc.toNat →
    step s = .next { s with df := false }

/-- 20_memory.md section 7: a store is seen by the very next fetch. An Fx55 that stores V0 and V1 over the word after
itself makes that word the next one fetched. -/
def Obligations.StoreIsSeenByTheNextFetch : Prop :=
  ∀ (s t : State) (x : Reg), s.mem.wf → 1 ≤ x.val → s.pc.toNat + 3 < 4096 → s.i.toNat = s.pc.toNat + 2 →
    exec (.ldMemVx x) s = .next t →
    fetch t = .ok (BitVec.ofNat 16 (256 * (s.getV 0).toNat + (s.getV 1).toNat))

/-! ## Control transfer (41_control_flow.md) -/

/-- 41_control_flow.md, 00EE: RET traps on the empty stack, else pc is the popped entry, with no 2 added, and SP is one
less. That the popped entry keeps its value, as the frame says, is decision D22 (log 14). -/
def Obligations.ReturnPopsTheStack : Prop :=
  decodeWord 0x00EE#16 = .ok .ret ∧ ∀ s : State,
    (s.sp.val = 0 → exec .ret s = .fault .stackUnderflow) ∧
    (∀ (n : Nat) (_ : n < 16), s.sp.val = n + 1 →
      ∃ t, exec .ret s = .next t ∧ t.pc = s.stk[n] ∧ t.sp.val = n ∧ OnlyChanges [.pc, .sp] s t)

/-- R142: JP sets pc to nnn, odd or even, and changes nothing else. -/
def Obligations.JumpSetsPc : Prop :=
  ∀ nnn : Addr, decodeWord (BitVec.ofNat 16 (0x1000 + nnn.toNat)) = .ok (.jp nnn) ∧
    ∀ s : State, ∃ t, exec (.jp nnn) s = .next t ∧ t.pc.toNat = nnn.toNat ∧ OnlyChanges [.pc] s t

/-- R143: CALL traps on the full stack, else it pushes pc + 2 and sets pc to nnn. -/
def Obligations.CallPushesTheReturnAddress : Prop :=
  ∀ nnn : Addr, decodeWord (BitVec.ofNat 16 (0x2000 + nnn.toNat)) = .ok (.call nnn) ∧ ∀ s : State,
    (s.sp.val = 16 → exec (.call nnn) s = .fault .stackOverflow) ∧
    (∀ (n : Nat) (_ : n < 16), s.sp.val = n →
      ∃ t, exec (.call nnn) s = .next t ∧ t.stk[n] = s.pc + 2 ∧ t.sp.val = n + 1 ∧ t.pc.toNat = nnn.toNat ∧
        (∀ k : Fin 16, k.val ≠ n → t.stk[k] = s.stk[k]) ∧ OnlyChanges [.pc, .sp, .stk] s t)

/-- R144: JP V0 sets pc to (nnn + V[0]) & 0xFFF and changes nothing else. -/
def Obligations.JumpWithOffsetSetsPc : Prop :=
  ∀ nnn : Addr, decodeWord (BitVec.ofNat 16 (0xB000 + nnn.toNat)) = .ok (.jpV0 nnn) ∧
    ∀ s : State, ∃ t, exec (.jpV0 nnn) s = .next t ∧ t.pc.toNat = (nnn.toNat + (s.getV 0).toNat) &&& 0xFFF ∧
      OnlyChanges [.pc] s t

/-- 41_control_flow.md, the conditional skips with an immediate: pc + 4 when the condition holds, else pc + 2. The
conditions (equal, not equal) are GK1's and decision D20's (log 7). -/
def Obligations.SkipsOnAnImmediate : Prop :=
  ∀ (x : Reg) (kk : Byte),
    decodeWord (BitVec.ofNat 16 (0x3000 + x.val * 256 + kk.toNat)) = .ok (.seImm x kk) ∧
    decodeWord (BitVec.ofNat 16 (0x4000 + x.val * 256 + kk.toNat)) = .ok (.sneImm x kk) ∧ ∀ s : State,
    (∃ t, exec (.seImm x kk) s = .next t ∧ t.pc = (if s.getV x = kk then s.pc + 4 else s.pc + 2) ∧
      OnlyChanges [.pc] s t) ∧
    (∃ t, exec (.sneImm x kk) s = .next t ∧ t.pc = (if s.getV x = kk then s.pc + 2 else s.pc + 4) ∧
      OnlyChanges [.pc] s t)

/-- 41_control_flow.md, the conditional skips on two registers, as above (GK1, D20, log 7). -/
def Obligations.SkipsOnTwoRegisters : Prop :=
  ∀ x y : Reg,
    decodeWord (BitVec.ofNat 16 (0x5000 + x.val * 256 + y.val * 16)) = .ok (.seReg x y) ∧
    decodeWord (BitVec.ofNat 16 (0x9000 + x.val * 256 + y.val * 16)) = .ok (.sneReg x y) ∧ ∀ s : State,
    (∃ t, exec (.seReg x y) s = .next t ∧ t.pc = (if s.getV x = s.getV y then s.pc + 4 else s.pc + 2) ∧
      OnlyChanges [.pc] s t) ∧
    (∃ t, exec (.sneReg x y) s = .next t ∧ t.pc = (if s.getV x = s.getV y then s.pc + 2 else s.pc + 4) ∧
      OnlyChanges [.pc] s t)

/-- 41_control_flow.md: a RET with the stack a CALL left goes to the instruction after the CALL, and the stack is as
deep as before it (the document's scenario 4). -/
def Obligations.CallThenReturnComesBack : Prop :=
  ∀ (nnn : Addr) (s t u : State), exec (.call nnn) s = .next t → u.sp = t.sp → u.stk = t.stk →
    ∃ w, exec .ret u = .next w ∧ w.pc = s.pc + 2 ∧ w.sp = s.sp

/-! ## Register load, arithmetic, bitwise, shift (42_alu.md) -/

/-- 42_alu.md, 6xkk: `V[x] <- kk`; that the load writes kk itself is decision D19 (log 7). -/
def Obligations.LoadImmediateSetsTheRegister : Prop :=
  ∀ (x : Reg) (kk : Byte), decodeWord (BitVec.ofNat 16 (0x6000 + x.val * 256 + kk.toNat)) = .ok (.ldImm x kk) ∧
    ∀ s : State, ∃ t, exec (.ldImm x kk) s = .next t ∧ t.getV x = kk ∧ (∀ r, r ≠ x → t.getV r = s.getV r) ∧
      t.pc = s.pc + 2 ∧ OnlyChanges [.v, .pc] s t

/-- R163: the sum modulo 256; no flag, also when x = 15. -/
def Obligations.AddImmediateSetsNoFlag : Prop :=
  ∀ (x : Reg) (kk : Byte), decodeWord (BitVec.ofNat 16 (0x7000 + x.val * 256 + kk.toNat)) = .ok (.addImm x kk) ∧
    ∀ s : State, ∃ t, exec (.addImm x kk) s = .next t ∧
      (t.getV x).toNat = ((s.getV x).toNat + kk.toNat) % 256 ∧ (∀ r, r ≠ x → t.getV r = s.getV r) ∧
      t.pc = s.pc + 2 ∧ OnlyChanges [.v, .pc] s t

/-- R164: `V[x] <- V[y]`, no flag. -/
def Obligations.MoveCopiesTheRegister : Prop :=
  ∀ x y : Reg, decodeWord (BitVec.ofNat 16 (0x8000 + x.val * 256 + y.val * 16)) = .ok (.ldReg x y) ∧
    ∀ s : State, ∃ t, exec (.ldReg x y) s = .next t ∧ t.getV x = s.getV y ∧ (∀ r, r ≠ x → t.getV r = s.getV r) ∧
      t.pc = s.pc + 2 ∧ OnlyChanges [.v, .pc] s t

/-- R165, R166, R167: OR, AND, XOR bit by bit; VF is not reset. -/
def Obligations.BitwiseOperationsSetNoFlag : Prop :=
  ∀ x y : Reg,
    decodeWord (BitVec.ofNat 16 (0x8001 + x.val * 256 + y.val * 16)) = .ok (.orReg x y) ∧
    decodeWord (BitVec.ofNat 16 (0x8002 + x.val * 256 + y.val * 16)) = .ok (.andReg x y) ∧
    decodeWord (BitVec.ofNat 16 (0x8003 + x.val * 256 + y.val * 16)) = .ok (.xorReg x y) ∧
    ∀ s : State, ∃ t u w, exec (.orReg x y) s = .next t ∧ exec (.andReg x y) s = .next u ∧
      exec (.xorReg x y) s = .next w ∧
      (∀ k, k < 8 →
        (t.getV x).getLsbD k = ((s.getV x).getLsbD k || (s.getV y).getLsbD k) ∧
        (u.getV x).getLsbD k = ((s.getV x).getLsbD k && (s.getV y).getLsbD k) ∧
        (w.getV x).getLsbD k = ((s.getV x).getLsbD k ^^ (s.getV y).getLsbD k)) ∧
      (∀ z ∈ [t, u, w], (∀ r, r ≠ x → z.getV r = s.getV r) ∧ z.pc = s.pc + 2 ∧ OnlyChanges [.v, .pc] s z)

/-- R168: VF is the carry; another x holds the sum modulo 256, and the carry law holds; with x = 15 the flag stays. -/
def Obligations.AddSetsTheCarry : Prop :=
  ∀ x y : Reg, decodeWord (BitVec.ofNat 16 (0x8004 + x.val * 256 + y.val * 16)) = .ok (.addReg x y) ∧
    ∀ s : State, ∃ t, exec (.addReg x y) s = .next t ∧
      (t.getV vf).toNat = (if (s.getV x).toNat + (s.getV y).toNat > 0xFF then 1 else 0) ∧
      (x ≠ vf → (t.getV x).toNat = ((s.getV x).toNat + (s.getV y).toNat) % 256 ∧
        (t.getV x).toNat + 256 * (t.getV vf).toNat = (s.getV x).toNat + (s.getV y).toNat) ∧
      (∀ r, r ≠ x → r ≠ vf → t.getV r = s.getV r) ∧ t.pc = s.pc + 2 ∧ OnlyChanges [.v, .pc] s t

/-- R169: VF is 1 when no borrow was needed, equality included; another x holds the difference modulo 256, and the
borrow law holds; with x = 15 the flag stays. -/
def Obligations.SubtractSetsNotBorrow : Prop :=
  ∀ x y : Reg, decodeWord (BitVec.ofNat 16 (0x8005 + x.val * 256 + y.val * 16)) = .ok (.subReg x y) ∧
    ∀ s : State, ∃ t, exec (.subReg x y) s = .next t ∧
      (t.getV vf).toNat = (if (s.getV x).toNat ≥ (s.getV y).toNat then 1 else 0) ∧
      (x ≠ vf → ((t.getV x).toNat : Int) = (((s.getV x).toNat : Int) - (s.getV y).toNat) % 256 ∧
        ((s.getV x).toNat : Int) - (s.getV y).toNat = (t.getV x).toNat - 256 * (1 - (t.getV vf).toNat)) ∧
      (∀ r, r ≠ x → r ≠ vf → t.getV r = s.getV r) ∧ t.pc = s.pc + 2 ∧ OnlyChanges [.v, .pc] s t

/-- R171: SUBN is SUB with the operands exchanged; the destination is still V[x]. -/
def Obligations.ReverseSubtractSetsNotBorrow : Prop :=
  ∀ x y : Reg, decodeWord (BitVec.ofNat 16 (0x8007 + x.val * 256 + y.val * 16)) = .ok (.subnReg x y) ∧
    ∀ s : State, ∃ t, exec (.subnReg x y) s = .next t ∧
      (t.getV vf).toNat = (if (s.getV y).toNat ≥ (s.getV x).toNat then 1 else 0) ∧
      (x ≠ vf → ((t.getV x).toNat : Int) = (((s.getV y).toNat : Int) - (s.getV x).toNat) % 256) ∧
      (∀ r, r ≠ x → r ≠ vf → t.getV r = s.getV r) ∧ t.pc = s.pc + 2 ∧ OnlyChanges [.v, .pc] s t

/-- R170, R172: the shifts are in place, by one, whatever y is; VF is the bit shifted out; with x = 15 the flag
stays. -/
def Obligations.ShiftsInPlaceSetTheBitShiftedOut : Prop :=
  ∀ x y : Reg,
    decodeWord (BitVec.ofNat 16 (0x8006 + x.val * 256 + y.val * 16)) = .ok (.shr x y) ∧
    decodeWord (BitVec.ofNat 16 (0x800E + x.val * 256 + y.val * 16)) = .ok (.shl x y) ∧
    ∀ s : State, ∃ t u, exec (.shr x y) s = .next t ∧ exec (.shl x y) s = .next u ∧
      (t.getV vf).toNat = (s.getV x).toNat % 2 ∧ (u.getV vf).toNat = (s.getV x).toNat / 128 ∧
      (x ≠ vf → (t.getV x).toNat = (s.getV x).toNat / 2 ∧ (u.getV x).toNat = 2 * (s.getV x).toNat % 256) ∧
      (∀ z ∈ [t, u], (∀ r, r ≠ x → r ≠ vf → z.getV r = s.getV r) ∧ z.pc = s.pc + 2 ∧ OnlyChanges [.v, .pc] s z)

/-- 10_state.md section 2: after each of the six instructions that write VF as a flag, VF is 0 or 1. -/
def Obligations.FlagsAreZeroOrOne : Prop :=
  ∀ (x y : Reg) (n : Fin 16) (s t : State) (i : Instr),
    i ∈ [.addReg x y, .subReg x y, .shr x y, .subnReg x y, .shl x y, .drw x y n] → exec i s = .next t →
    (t.getV vf).toNat ≤ 1

/-! ## Index register and random (43_index_random.md) -/

/-- R180: `I <- nnn`, bits 15..12 become 0. -/
def Obligations.LoadIndexSetsI : Prop :=
  ∀ nnn : Addr, decodeWord (BitVec.ofNat 16 (0xA000 + nnn.toNat)) = .ok (.ldI nnn) ∧
    ∀ s : State, ∃ t, exec (.ldI nnn) s = .next t ∧ t.i.toNat = nnn.toNat ∧ t.pc = s.pc + 2 ∧
      OnlyChanges [.i, .pc] s t

/-- R181: the sum wraps at 16 bits, not at 12; VF unchanged. -/
def Obligations.AddToIndexWrapsAtSixteenBits : Prop :=
  ∀ x : Reg, decodeWord (BitVec.ofNat 16 (0xF01E + x.val * 256)) = .ok (.addIVx x) ∧
    ∀ s : State, ∃ t, exec (.addIVx x) s = .next t ∧ t.i.toNat = (s.i.toNat + (s.getV x).toNat) % 65536 ∧
      t.pc = s.pc + 2 ∧ OnlyChanges [.i, .pc] s t

/-- R182: I points at the glyph of the low nibble of V[x]. -/
def Obligations.GlyphAddressIsFiveTimesTheDigit : Prop :=
  ∀ x : Reg, decodeWord (BitVec.ofNat 16 (0xF029 + x.val * 256)) = .ok (.ldFVx x) ∧
    ∀ s : State, ∃ t, exec (.ldFVx x) s = .next t ∧ t.i.toNat = ((s.getV x).toNat &&& 0x0F) * 5 ∧
      t.pc = s.pc + 2 ∧ OnlyChanges [.i, .pc] s t

/-- 43_index_random.md, Cxkk: the draw masked by kk, one fresh draw a step. The draw is a FREE VALUE, the model's
`Config.randU8` at the model's own counter `draws` (D6, log 2): this holds for every sequence of draws. -/
def Obligations.RandomByteIsMasked : Prop :=
  ∀ (x : Reg) (kk : Byte), decodeWord (BitVec.ofNat 16 (0xC000 + x.val * 256 + kk.toNat)) = .ok (.rnd x kk) ∧
    ∀ s : State, ∃ t, exec (.rnd x kk) s = .next t ∧ t.getV x = Config.randU8 s.draws &&& kk ∧
      t.getV x &&& ~~~kk = 0 ∧ (t.getV x).toNat ≤ kk.toNat ∧ (∀ r, r ≠ x → t.getV r = s.getV r) ∧
      t.draws = s.draws + 1 ∧ t.pc = s.pc + 2 ∧ OnlyChanges [.v, .draws, .pc] s t

/-! ## Display (44_display.md) -/

/-- R190: CLS makes every pixel 0 and DF true; VF is not written. -/
def Obligations.ClearScreenDarkensEveryPixel : Prop :=
  decodeWord 0x00E0#16 = .ok .cls ∧ ∀ s : State, ∃ t, exec .cls s = .next t ∧
    (∀ px py, px < 64 → py < 32 → t.fb.pixel px py = false) ∧ t.df = true ∧ t.pc = s.pc + 2 ∧
    OnlyChanges [.fb, .df, .pc] s t

/-- 44_display.md, Dxyn: exactly the visible pixels under set sprite bits are flipped; VF is 1 exactly when one of them
was lit; DF is set; I and memory are unchanged. The registers are read before VF is written, so it holds for x = 15
and y = 15 too (decision D5, log 7). -/
def Obligations.DrawFlipsTheVisibleSpriteBits : Prop :=
  ∀ (x y : Reg) (n : Fin 16),
    decodeWord (BitVec.ofNat 16 (0xD000 + x.val * 256 + y.val * 16 + n.val)) = .ok (.drw x y n) ∧
    ∀ s : State, ∃ t, exec (.drw x y n) s = .next t ∧
      (∀ px py, px < 64 → py < 32 →
        (t.fb.pixel px py ≠ s.fb.pixel px py ↔ s.SpriteCovers x y n.val px py)) ∧
      (s.SpriteCollides x y n.val → t.getV vf = 1) ∧ (¬ s.SpriteCollides x y n.val → t.getV vf = 0) ∧
      t.df = true ∧ (∀ r, r ≠ vf → t.getV r = s.getV r) ∧ t.pc = s.pc + 2 ∧ OnlyChanges [.v, .fb, .df, .pc] s t

/-- 44_display.md, corner cases: an all-zero sprite, and one of no rows, leaves the framebuffer unchanged and VF = 0;
DF is set, pc is 2 more, and the other registers, I, memory and all else are unchanged. -/
def Obligations.DrawOfNothingClearsVFOnly : Prop :=
  ∀ (x y : Reg) (n : Fin 16) (s : State), (∀ r, r < n.val → s.memRead (s.i.toNat + r) = 0) →
    ∃ t, exec (.drw x y n) s = .next t ∧ t.fb = s.fb ∧ t.getV vf = 0 ∧ t.df = true ∧
      (∀ r, r ≠ vf → t.getV r = s.getV r) ∧ t.pc = s.pc + 2 ∧ OnlyChanges [.v, .df, .pc] s t

/-- 44_display.md, corner cases: drawing the same sprite twice at the same origin restores the framebuffer. The second
draw sets VF exactly when a visible set bit lies over a pixel that was dark before the first: the spec's own words here
(any visible set bit) hold only on pixels that were dark, so this is the form that follows from R192's text (log 13).
(x, y other than 15, so that the first draw's flag does not move the origin.) -/
def Obligations.DrawTwiceRestoresTheScreen : Prop :=
  ∀ (x y : Reg) (n : Fin 16) (s t : State), x ≠ vf → y ≠ vf → exec (.drw x y n) s = .next t →
    ∃ u, exec (.drw x y n) t = .next u ∧ u.fb = s.fb ∧
      (u.getV vf = 1 ↔ ∃ px py, (px < 64 ∧ py < 32) ∧ s.SpriteCovers x y n.val px py ∧ s.fb.pixel px py = false)

/-! ## Keypad (45_keypad.md) -/

/-- R200, R201: the skips on the key named by the low nibble of V[x]; the keypad is not changed. -/
def Obligations.SkipsOnAKey : Prop :=
  ∀ x : Reg,
    decodeWord (BitVec.ofNat 16 (0xE09E + x.val * 256)) = .ok (.skp x) ∧
    decodeWord (BitVec.ofNat 16 (0xE0A1 + x.val * 256)) = .ok (.sknp x) ∧
    ∀ (s : State) (k : Fin 16), k.val = (s.getV x).toNat &&& 0x0F →
    (∃ t, exec (.skp x) s = .next t ∧ t.pc = (if s.keys[k] = true then s.pc + 4 else s.pc + 2) ∧
      OnlyChanges [.pc] s t) ∧
    (∃ t, exec (.sknp x) s = .next t ∧ t.pc = (if s.keys[k] = true then s.pc + 2 else s.pc + 4) ∧
      OnlyChanges [.pc] s t)

/-- R202: the lowest pressed key is loaded; with no key pressed nothing is written and pc stays. -/
def Obligations.KeyWaitTakesTheLowestKeyOrStays : Prop :=
  ∀ x : Reg, decodeWord (BitVec.ofNat 16 (0xF00A + x.val * 256)) = .ok (.ldVxK x) ∧ ∀ s : State,
    (∀ k : Fin 16, s.keys[k] = true → (∀ j : Fin 16, j < k → s.keys[j] = false) →
      ∃ t, exec (.ldVxK x) s = .next t ∧ (t.getV x).toNat = k.val ∧ (∀ r, r ≠ x → t.getV r = s.getV r) ∧
        t.pc = s.pc + 2 ∧ OnlyChanges [.v, .pc] s t) ∧
    ((∀ k : Fin 16, s.keys[k] = false) → exec (.ldVxK x) s = .next s)

/-! ## Timers (46_timers.md, 60_exceptions.md) -/

/-- R210, R211, R212: the timer reads and writes, all 8 bits; no flag. -/
def Obligations.TimerInstructionsCopyOneByte : Prop :=
  ∀ x : Reg,
    decodeWord (BitVec.ofNat 16 (0xF007 + x.val * 256)) = .ok (.ldVxDT x) ∧
    decodeWord (BitVec.ofNat 16 (0xF015 + x.val * 256)) = .ok (.ldDTVx x) ∧
    decodeWord (BitVec.ofNat 16 (0xF018 + x.val * 256)) = .ok (.ldSTVx x) ∧ ∀ s : State,
    (∃ t, exec (.ldVxDT x) s = .next t ∧ t.getV x = s.dt ∧ (∀ r, r ≠ x → t.getV r = s.getV r) ∧ t.pc = s.pc + 2 ∧
      OnlyChanges [.v, .pc] s t) ∧
    (∃ t, exec (.ldDTVx x) s = .next t ∧ t.dt = s.getV x ∧ t.pc = s.pc + 2 ∧ OnlyChanges [.dt, .pc] s t) ∧
    (∃ t, exec (.ldSTVx x) s = .next t ∧ t.st = s.getV x ∧ t.pc = s.pc + 2 ∧ OnlyChanges [.st, .pc] s t ∧
      (perform .soundActive t).2 = .bool (decide (0 < (s.getV x).toNat)))

/-- R250: a tick takes both timers down by one, saturating at 0, and touches nothing else; here n ticks. -/
def Obligations.TicksCountBothTimersDownToZero : Prop :=
  ∀ (n : Nat) (s : State), let t := (performAll (List.replicate n .tickTimers) s).1
    t.dt.toNat = s.dt.toNat - n ∧ t.st.toNat = s.st.toNat - n ∧ OnlyChanges [.dt, .st] s t

/-! ## Memory transfer (47_memory_transfer.md) -/

/-- R221: the three decimal digits at I, I + 1, I + 2, addresses masked; every other byte as before. -/
def Obligations.StoreDigitsWritesThreeBytes : Prop :=
  ∀ x : Reg, decodeWord (BitVec.ofNat 16 (0xF033 + x.val * 256)) = .ok (.ldBVx x) ∧
    ∀ s : State, s.mem.wf → ∃ t, exec (.ldBVx x) s = .next t ∧
      (t.memRead ((s.i.toNat + 0) % 4096)).toNat = (s.getV x).toNat / 100 ∧
      (t.memRead ((s.i.toNat + 1) % 4096)).toNat = (s.getV x).toNat / 10 % 10 ∧
      (t.memRead ((s.i.toNat + 2) % 4096)).toNat = (s.getV x).toNat % 10 ∧
      (∀ a, (∀ k, k < 3 → a % 4096 ≠ (s.i.toNat + k) % 4096) → t.memRead a = s.memRead a) ∧
      t.pc = s.pc + 2 ∧ OnlyChanges [.mem, .pc] s t

/-- R222: V0..Vx inclusive at ascending masked addresses from I; I and every other byte as before. -/
def Obligations.StoreRegistersWritesTheRange : Prop :=
  ∀ x : Reg, decodeWord (BitVec.ofNat 16 (0xF055 + x.val * 256)) = .ok (.ldMemVx x) ∧
    ∀ s : State, s.mem.wf → ∃ t, exec (.ldMemVx x) s = .next t ∧
      (∀ r : Reg, r ≤ x → t.memRead ((s.i.toNat + r.val) % 4096) = s.getV r) ∧
      (∀ a, (∀ r : Reg, r ≤ x → a % 4096 ≠ (s.i.toNat + r.val) % 4096) → t.memRead a = s.memRead a) ∧
      t.pc = s.pc + 2 ∧ OnlyChanges [.mem, .pc] s t

/-- R223: V0..Vx inclusive from ascending masked addresses from I; registers above x, I and memory as before. -/
def Obligations.LoadRegistersReadsTheRange : Prop :=
  ∀ x : Reg, decodeWord (BitVec.ofNat 16 (0xF065 + x.val * 256)) = .ok (.ldVxMem x) ∧
    ∀ s : State, ∃ t, exec (.ldVxMem x) s = .next t ∧
      (∀ r : Reg, r ≤ x → t.getV r = s.memRead ((s.i.toNat + r.val) % 4096)) ∧
      (∀ r : Reg, x < r → t.getV r = s.getV r) ∧ t.pc = s.pc + 2 ∧ OnlyChanges [.v, .pc] s t

/-- 47_memory_transfer.md, the round trip: Fx65 restores what Fx55 stored, for every x, whatever happened to the
registers between, provided I and the bytes are the same. -/
def Obligations.StoreThenLoadRestoresTheRegisters : Prop :=
  ∀ (x : Reg) (s t u : State), s.mem.wf → exec (.ldMemVx x) s = .next t → u.i = s.i →
    (∀ r : Reg, r ≤ x → u.memRead (s.i.toNat + r.val) = t.memRead (s.i.toNat + r.val)) →
    ∃ w, exec (.ldVxMem x) u = .next w ∧ ∀ r : Reg, r ≤ x → w.getV r = s.getV r

/-- The MODEL's representation of memory (log 9): two memories in canonical form that read alike at every address are
the same list, so that equal memories are equal data. -/
def Obligations.EqualReadsAreEqualMemories : Prop :=
  ∀ m n : Memory, m.wf → n.wf → (∀ a, a < 4096 → m.read a = n.read a) → m = n

/-! ## Host operations (60_exceptions.md, 70_reset_and_hazards.md) -/

/-- R252: `set_key` writes one key and nothing else. -/
def Obligations.SetKeyWritesOneKey : Prop :=
  ∀ (k : Fin 16) (p : Bool) (s : State), let t := (perform (.setKey k p) s).1
    t.keys[k] = p ∧ (∀ j : Fin 16, j ≠ k → t.keys[j] = s.keys[j]) ∧ OnlyChanges [.keys] s t

/-- R256, R257, R258: `sound_active()` tells ST > 0, `draw_flag()` tells DF, and neither changes anything;
`clear_draw_flag()` clears DF and nothing else. -/
def Obligations.ObserversReportAndChangeNothing : Prop :=
  ∀ s : State, perform .soundActive s = (s, .bool (decide (0 < s.st.toNat))) ∧ perform .drawFlag s = (s, .bool s.df) ∧
    perform .framebuffer s = (s, .view s.fb) ∧
    (perform .clearDrawFlag s).1.df = false ∧ OnlyChanges [.df] s (perform .clearDrawFlag s).1

/-- 70_reset_and_hazards.md section 2: at most 3584 bytes go to 0x200 and up, and nothing else changes; more are
rejected. That a rejected load writes nothing and an accepted one only its bytes is decision D10 (log 10). -/
def Obligations.LoadRomPlacesTheBytes : Prop :=
  ∀ (bytes : List Byte) (s : State), s.mem.wf →
    (3584 < bytes.length → perform (.loadRom bytes) s = (s, .tooLarge)) ∧
    (bytes.length ≤ 3584 → ∃ t, perform (.loadRom bytes) s = (t, .ok) ∧ t.mem.wf ∧
      (∀ (k : Nat) (_ : k < bytes.length), t.memRead (0x200 + k) = bytes[k]) ∧
      (∀ a, a < 0x200 ∨ 0x200 + bytes.length ≤ a → a < 4096 → t.memRead a = s.memRead a) ∧ OnlyChanges [.mem] s t)

/-- R270: `reset()` puts every field to zero but the fontset and pc, in any state. The model's own draw counter is not
constrained by it (log 2). -/
def Obligations.ResetLeavesEveryFieldAtItsResetValue : Prop :=
  ∀ s : State, let t := (perform .reset s).1
    (∀ r, t.getV r = 0) ∧ t.i = 0 ∧ t.pc = 0x200 ∧ t.sp = 0 ∧ (∀ k : Fin 16, t.stk[k] = 0) ∧ t.dt = 0 ∧ t.st = 0 ∧
    (∀ px py, px < 64 → py < 32 → t.fb.pixel px py = false) ∧ t.df = false ∧ (∀ k : Fin 16, t.keys[k] = false) ∧
    fontset.length = 0x50 ∧ (∀ (a : Nat) (_ : a < fontset.length), t.memRead a = fontset[a]) ∧
    (∀ a, 0x50 ≤ a → a < 0x1000 → t.memRead a = 0)

/-- 70_reset_and_hazards.md section 2, the boot sequence: after reset and load, the first step runs the program's first
word. -/
def Obligations.ALoadedProgramStartsAtItsFirstWord : Prop :=
  ∀ (s t : State) (b0 b1 : Byte) (rest : List Byte) (i : Instr), rest.length + 2 ≤ 3584 →
    decodeWord (BitVec.ofNat 16 (256 * b0.toNat + b1.toNat)) = .ok i →
    performAll [.reset, .loadRom (b0 :: b1 :: rest)] s = (t, [.none, .ok]) → step t = exec i t

/-- The MODEL's way to place an instruction for the next step (log 11): whatever the state, the word is fetched and
its instruction run. -/
def Obligations.APlacedWordIsTheNextInstruction : Prop :=
  ∀ (s : State) (w : Nat) (i : Instr), s.mem.wf → decodeTableWord 16 w = some i →
    step (s.withFetchWord 16 w) = exec i { s.withFetchWord 16 w with df := false }

/-- 10_state.md section 12: every operation of the interface, with any argument and whether a step traps or not, keeps
the invariants, from every state that has them, reachable or not. The canonical form of memory is the model's (log 9),
and what a load and a trap leave are decisions D10 and D3 (log 10, log 3). -/
def Obligations.EveryOperationKeepsTheInvariants : Prop :=
  ∀ (op : HostOp) (s : State), s.Inv → (perform op s).1.Inv
end

