-- ==== Sys2Proof/Laws/Decode.lean ====
section
/-! SUPPORT. The fields of an opcode and the words of the encoder as numbers, so that encoding facts are arithmetic. -/

namespace Sys2Proof

theorem majorOf_val (op : Word) : majorOf op = op.toNat / 4096 := by
  have := op.isLt
  simp only [majorOf, BitVec.extractLsb'_toNat, Nat.shiftRight_eq_div_pow]
  omega

theorem nnnOf_toNat (op : Word) : (nnnOf op).toNat = op.toNat % 4096 := by
  simp [nnnOf, BitVec.extractLsb'_toNat]

theorem xOf_val (op : Word) : (xOf op).val = op.toNat / 256 % 16 := by
  simp [xOf, Nat.shiftRight_eq_div_pow]

theorem yOf_val (op : Word) : (yOf op).val = op.toNat / 16 % 16 := by
  simp [yOf, Nat.shiftRight_eq_div_pow]

theorem nOf_val (op : Word) : (nOf op).val = op.toNat % 16 := by
  simp [nOf]

theorem kkOf_toNat (op : Word) : (kkOf op).toNat = op.toNat % 256 := by
  simp [kkOf, BitVec.extractLsb'_toNat]

/-- Big-endian: the byte at the lower address is the high byte (R68). -/
theorem opcodeOf_toNat (hi lo : Byte) : (opcodeOf hi lo).toNat = hi.toNat * 256 + lo.toNat := by
  have h1 := hi.isLt
  have h2 := lo.isLt
  have hs : hi.toNat <<< 8 % 2 ^ 16 = hi.toNat <<< 8 := by
    rw [Nat.shiftLeft_eq]; omega
  have hw : hi.toNat % 2 ^ 16 = hi.toNat := by omega
  have lw : lo.toNat % 2 ^ 16 = lo.toNat := by omega
  simp only [opcodeOf, BitVec.toNat_or, BitVec.toNat_shiftLeft, BitVec.toNat_setWidth, hw, lw, hs]
  rw [← Nat.shiftLeft_add_eq_or_of_lt h2, Nat.shiftLeft_eq]

theorem highByte_toNat (op : Word) : (highByte op).toNat = op.toNat / 256 := by
  have := op.isLt
  simp only [highByte, BitVec.extractLsb'_toNat, Nat.shiftRight_eq_div_pow]
  omega

theorem lowByte_toNat (op : Word) : (lowByte op).toNat = op.toNat % 256 := by
  simp [lowByte, BitVec.extractLsb'_toNat]

/-- An opcode laid out in memory and read back is itself. -/
@[simp] theorem opcodeOf_layOut (op : Word) : opcodeOf (highByte op) (lowByte op) = op := by
  apply BitVec.eq_of_toNat_eq
  rw [opcodeOf_toNat, highByte_toNat, lowByte_toNat]
  omega

/-! ## R93's masks as arithmetic -/

theorem and_F000 (op : Word) : (op &&& 0xF000#16).toNat = op.toNat / 4096 * 4096 := by
  have h : op &&& 0xF000#16 = (op >>> 12) <<< 12 := by
    ext i hi
    interval_cases i <;> simp
  have := op.isLt
  rw [h, BitVec.toNat_shiftLeft, BitVec.toNat_ushiftRight, Nat.shiftLeft_eq, Nat.shiftRight_eq_div_pow]
  omega

theorem and_000F (op : Word) : (op &&& 0x000F#16).toNat = op.toNat % 16 := by
  rw [BitVec.toNat_and]
  exact Nat.and_two_pow_sub_one_eq_mod op.toNat 4

theorem and_00FF (op : Word) : (op &&& 0x00FF#16).toNat = op.toNat % 256 := by
  rw [BitVec.toNat_and]
  exact Nat.and_two_pow_sub_one_eq_mod op.toNat 8

/-- Two masks with no bit in common are applied one after the other and added. -/
theorem and_split (op hi lo : Word) (h : hi &&& lo = 0#16) :
    (op &&& (hi ||| lo)).toNat = (op &&& hi).toNat + (op &&& lo).toNat := by
  have hd : (op &&& hi) &&& (op &&& lo) = 0#16 := by
    have : (op &&& hi) &&& (op &&& lo) = op &&& (hi &&& lo) := by
      ext i hi
      simp only [BitVec.getElem_and]
      cases op[i] <;> simp
    rw [this, h, BitVec.and_zero]
  rw [show op &&& (hi ||| lo) = (op &&& hi) ||| (op &&& lo) by ext i hi; simp [Bool.and_or_distrib_left],
    ← BitVec.add_eq_or_of_and_eq_zero _ _ hd, BitVec.toNat_add_of_and_eq_zero hd]

theorem and_F00F (op : Word) : (op &&& 0xF00F#16).toNat = op.toNat / 4096 * 4096 + op.toNat % 16 := by
  rw [← and_F000, ← and_000F]
  exact and_split op 0xF000#16 0x000F#16 (by decide)

theorem and_F0FF (op : Word) : (op &&& 0xF0FF#16).toNat = op.toNat / 4096 * 4096 + op.toNat % 256 := by
  rw [← and_F000, ← and_00FF]
  exact and_split op 0xF000#16 0x00FF#16 (by decide)

/-! ## The encoder's formats as numbers -/

theorem nibbles_toNat {a b c d : Nat} (ha : a < 16) (hb : b < 16) (hc : c < 16) (hd : d < 16) :
    (nibbles a b c d).toNat = a * 4096 + b * 256 + c * 16 + d := by
  simp only [nibbles, BitVec.toNat_ofNat]
  omega

theorem formatA_toNat {major : Nat} (h : major < 16) (nnn : Addr) :
    (formatA major nnn).toNat = major * 4096 + nnn.toNat := by
  have := nnn.isLt
  simp only [formatA, BitVec.toNat_ofNat]
  omega

theorem formatXK_toNat {major : Nat} (h : major < 16) (x : Reg) (kk : Byte) :
    (formatXK major x kk).toNat = major * 4096 + x * 256 + kk.toNat := by
  have := kk.isLt
  have := x.isLt
  simp only [formatXK, BitVec.toNat_ofNat]
  omega

/-! ## The fields of an encoded word -/

@[simp] theorem majorOf_formatA {m : Nat} (h : m < 16) (nnn : Addr) : majorOf (formatA m nnn) = m := by
  have := nnn.isLt
  rw [majorOf_val, formatA_toNat h]
  omega

@[simp] theorem nnnOf_formatA {m : Nat} (h : m < 16) (nnn : Addr) : nnnOf (formatA m nnn) = nnn := by
  have := nnn.isLt
  apply BitVec.eq_of_toNat_eq
  rw [nnnOf_toNat, formatA_toNat h]
  omega

@[simp] theorem majorOf_formatXK {m : Nat} (h : m < 16) (x : Reg) (kk : Byte) : majorOf (formatXK m x kk) = m := by
  have := kk.isLt
  rw [majorOf_val, formatXK_toNat h]
  omega

@[simp] theorem xOf_formatXK {m : Nat} (h : m < 16) (x : Reg) (kk : Byte) : xOf (formatXK m x kk) = x := by
  have := kk.isLt
  apply Fin.ext
  rw [xOf_val, formatXK_toNat h]
  omega

@[simp] theorem kkOf_formatXK {m : Nat} (h : m < 16) (x : Reg) (kk : Byte) : kkOf (formatXK m x kk) = kk := by
  have := kk.isLt
  apply BitVec.eq_of_toNat_eq
  rw [kkOf_toNat, formatXK_toNat h]
  omega

variable {a b c d : Nat}

@[simp] theorem majorOf_nibbles (ha : a < 16) (hb : b < 16) (hc : c < 16) (hd : d < 16) :
    majorOf (nibbles a b c d) = a := by
  rw [majorOf_val, nibbles_toNat ha hb hc hd]
  omega

@[simp] theorem xOf_nibbles (ha : a < 16) (hb : b < 16) (hc : c < 16) (hd : d < 16) :
    xOf (nibbles a b c d) = ⟨b, hb⟩ := by
  apply Fin.ext
  rw [xOf_val, nibbles_toNat ha hb hc hd]
  simp only
  omega

@[simp] theorem yOf_nibbles (ha : a < 16) (hb : b < 16) (hc : c < 16) (hd : d < 16) :
    yOf (nibbles a b c d) = ⟨c, hc⟩ := by
  apply Fin.ext
  rw [yOf_val, nibbles_toNat ha hb hc hd]
  simp only
  omega

@[simp] theorem nOf_nibbles (ha : a < 16) (hb : b < 16) (hc : c < 16) (hd : d < 16) :
    nOf (nibbles a b c d) = ⟨d, hd⟩ := by
  apply Fin.ext
  rw [nOf_val, nibbles_toNat ha hb hc hd]
  simp only
  omega

@[simp] theorem kkOf_nibbles (ha : a < 16) (hb : b < 16) (hc : c < 16) (hd : d < 16) :
    (kkOf (nibbles a b c d)).toNat = c * 16 + d := by
  rw [kkOf_toNat, nibbles_toNat ha hb hc hd]
  omega

/-- The decoder on the bytes of an opcode is the decoder on the opcode (R90, R91). -/
theorem decodeBytes_layOut (op : Word) (rest : List Byte) : decodeBytes (layOut op ++ rest) =
    match decodeWord op with
    | .ok i => .ok (i, rest)
    | .error e => .error e := by
  cases h : decodeWord op <;>
    simp only [layOut, List.cons_append, List.nil_append, decodeBytes, opcodeOf_layOut, h]

/-- An opcode-table word is read as the opcode it numbers. -/
theorem decodeTableWord_eq {w : Nat} (i : Instr) : decodeTableWord 16 w = some i ↔
    decodeWord (BitVec.ofNat 16 w) = .ok i := by
  have h : BitVec.ofNat 16 (w % 2 ^ 16) = BitVec.ofNat 16 w := by
    apply BitVec.eq_of_toNat_eq; simp
  have := decodeBytes_layOut (BitVec.ofNat 16 w) []
  rw [List.append_nil] at this
  simp only [decodeTableWord, h, this]
  cases decodeWord (BitVec.ofNat 16 w) <;> simp

end Sys2Proof
end

