-- ==== Sys2Proof/Laws/State.lean ====
section
/-! SUPPORT. One lemma per field per update of State, true by rfl, so that no proof unfolds a record update; and how
the reads `getV`, `memRead`, `ea` see each update. -/

namespace Sys2Proof.Machine

variable (s : State)

/-! ## setV -/

@[simp] theorem State.setV_v (r : Reg) (b : Byte) : (s.setV r b).v = s.v.set r.val b r.isLt := rfl
@[simp] theorem State.setV_i (r : Reg) (b : Byte) : (s.setV r b).i = s.i := rfl
@[simp] theorem State.setV_pc (r : Reg) (b : Byte) : (s.setV r b).pc = s.pc := rfl
@[simp] theorem State.setV_sp (r : Reg) (b : Byte) : (s.setV r b).sp = s.sp := rfl
@[simp] theorem State.setV_stk (r : Reg) (b : Byte) : (s.setV r b).stk = s.stk := rfl
@[simp] theorem State.setV_dt (r : Reg) (b : Byte) : (s.setV r b).dt = s.dt := rfl
@[simp] theorem State.setV_st (r : Reg) (b : Byte) : (s.setV r b).st = s.st := rfl
@[simp] theorem State.setV_fb (r : Reg) (b : Byte) : (s.setV r b).fb = s.fb := rfl
@[simp] theorem State.setV_df (r : Reg) (b : Byte) : (s.setV r b).df = s.df := rfl
@[simp] theorem State.setV_keys (r : Reg) (b : Byte) : (s.setV r b).keys = s.keys := rfl
@[simp] theorem State.setV_mem (r : Reg) (b : Byte) : (s.setV r b).mem = s.mem := rfl
@[simp] theorem State.setV_draws (r : Reg) (b : Byte) : (s.setV r b).draws = s.draws := rfl
@[simp] theorem State.setV_memRead (r : Reg) (b : Byte) (c : Nat) : (s.setV r b).memRead c = s.memRead c := rfl
@[simp] theorem State.setV_ea (r : Reg) (b : Byte) (j : Nat) : (s.setV r b).ea j = s.ea j := rfl

/-! ## setI -/

@[simp] theorem State.setI_v (w : Word) : (s.setI w).v = s.v := rfl
@[simp] theorem State.setI_i (w : Word) : (s.setI w).i = w := rfl
@[simp] theorem State.setI_pc (w : Word) : (s.setI w).pc = s.pc := rfl
@[simp] theorem State.setI_sp (w : Word) : (s.setI w).sp = s.sp := rfl
@[simp] theorem State.setI_stk (w : Word) : (s.setI w).stk = s.stk := rfl
@[simp] theorem State.setI_dt (w : Word) : (s.setI w).dt = s.dt := rfl
@[simp] theorem State.setI_st (w : Word) : (s.setI w).st = s.st := rfl
@[simp] theorem State.setI_fb (w : Word) : (s.setI w).fb = s.fb := rfl
@[simp] theorem State.setI_df (w : Word) : (s.setI w).df = s.df := rfl
@[simp] theorem State.setI_keys (w : Word) : (s.setI w).keys = s.keys := rfl
@[simp] theorem State.setI_mem (w : Word) : (s.setI w).mem = s.mem := rfl
@[simp] theorem State.setI_draws (w : Word) : (s.setI w).draws = s.draws := rfl
@[simp] theorem State.setI_getV (w : Word) (r : Reg) : (s.setI w).getV r = s.getV r := rfl
@[simp] theorem State.setI_memRead (w : Word) (c : Nat) : (s.setI w).memRead c = s.memRead c := rfl

/-! ## setPc -/

@[simp] theorem State.setPc_v (w : Word) : (s.setPc w).v = s.v := rfl
@[simp] theorem State.setPc_i (w : Word) : (s.setPc w).i = s.i := rfl
@[simp] theorem State.setPc_pc (w : Word) : (s.setPc w).pc = w := rfl
@[simp] theorem State.setPc_sp (w : Word) : (s.setPc w).sp = s.sp := rfl
@[simp] theorem State.setPc_stk (w : Word) : (s.setPc w).stk = s.stk := rfl
@[simp] theorem State.setPc_dt (w : Word) : (s.setPc w).dt = s.dt := rfl
@[simp] theorem State.setPc_st (w : Word) : (s.setPc w).st = s.st := rfl
@[simp] theorem State.setPc_fb (w : Word) : (s.setPc w).fb = s.fb := rfl
@[simp] theorem State.setPc_df (w : Word) : (s.setPc w).df = s.df := rfl
@[simp] theorem State.setPc_keys (w : Word) : (s.setPc w).keys = s.keys := rfl
@[simp] theorem State.setPc_mem (w : Word) : (s.setPc w).mem = s.mem := rfl
@[simp] theorem State.setPc_draws (w : Word) : (s.setPc w).draws = s.draws := rfl
@[simp] theorem State.setPc_getV (w : Word) (r : Reg) : (s.setPc w).getV r = s.getV r := rfl
@[simp] theorem State.setPc_memRead (w : Word) (c : Nat) : (s.setPc w).memRead c = s.memRead c := rfl
@[simp] theorem State.setPc_ea (w : Word) (j : Nat) : (s.setPc w).ea j = s.ea j := rfl

/-! ## setDt -/

@[simp] theorem State.setDt_v (b : Byte) : (s.setDt b).v = s.v := rfl
@[simp] theorem State.setDt_i (b : Byte) : (s.setDt b).i = s.i := rfl
@[simp] theorem State.setDt_pc (b : Byte) : (s.setDt b).pc = s.pc := rfl
@[simp] theorem State.setDt_sp (b : Byte) : (s.setDt b).sp = s.sp := rfl
@[simp] theorem State.setDt_stk (b : Byte) : (s.setDt b).stk = s.stk := rfl
@[simp] theorem State.setDt_dt (b : Byte) : (s.setDt b).dt = b := rfl
@[simp] theorem State.setDt_st (b : Byte) : (s.setDt b).st = s.st := rfl
@[simp] theorem State.setDt_fb (b : Byte) : (s.setDt b).fb = s.fb := rfl
@[simp] theorem State.setDt_df (b : Byte) : (s.setDt b).df = s.df := rfl
@[simp] theorem State.setDt_keys (b : Byte) : (s.setDt b).keys = s.keys := rfl
@[simp] theorem State.setDt_mem (b : Byte) : (s.setDt b).mem = s.mem := rfl
@[simp] theorem State.setDt_draws (b : Byte) : (s.setDt b).draws = s.draws := rfl
@[simp] theorem State.setDt_getV (b : Byte) (r : Reg) : (s.setDt b).getV r = s.getV r := rfl
@[simp] theorem State.setDt_memRead (b : Byte) (c : Nat) : (s.setDt b).memRead c = s.memRead c := rfl
@[simp] theorem State.setDt_ea (b : Byte) (j : Nat) : (s.setDt b).ea j = s.ea j := rfl

/-! ## setSt -/

@[simp] theorem State.setSt_v (b : Byte) : (s.setSt b).v = s.v := rfl
@[simp] theorem State.setSt_i (b : Byte) : (s.setSt b).i = s.i := rfl
@[simp] theorem State.setSt_pc (b : Byte) : (s.setSt b).pc = s.pc := rfl
@[simp] theorem State.setSt_sp (b : Byte) : (s.setSt b).sp = s.sp := rfl
@[simp] theorem State.setSt_stk (b : Byte) : (s.setSt b).stk = s.stk := rfl
@[simp] theorem State.setSt_dt (b : Byte) : (s.setSt b).dt = s.dt := rfl
@[simp] theorem State.setSt_st (b : Byte) : (s.setSt b).st = b := rfl
@[simp] theorem State.setSt_fb (b : Byte) : (s.setSt b).fb = s.fb := rfl
@[simp] theorem State.setSt_df (b : Byte) : (s.setSt b).df = s.df := rfl
@[simp] theorem State.setSt_keys (b : Byte) : (s.setSt b).keys = s.keys := rfl
@[simp] theorem State.setSt_mem (b : Byte) : (s.setSt b).mem = s.mem := rfl
@[simp] theorem State.setSt_draws (b : Byte) : (s.setSt b).draws = s.draws := rfl
@[simp] theorem State.setSt_getV (b : Byte) (r : Reg) : (s.setSt b).getV r = s.getV r := rfl
@[simp] theorem State.setSt_memRead (b : Byte) (c : Nat) : (s.setSt b).memRead c = s.memRead c := rfl
@[simp] theorem State.setSt_ea (b : Byte) (j : Nat) : (s.setSt b).ea j = s.ea j := rfl

/-! ## setDf -/

@[simp] theorem State.setDf_v (b : Bool) : (s.setDf b).v = s.v := rfl
@[simp] theorem State.setDf_i (b : Bool) : (s.setDf b).i = s.i := rfl
@[simp] theorem State.setDf_pc (b : Bool) : (s.setDf b).pc = s.pc := rfl
@[simp] theorem State.setDf_sp (b : Bool) : (s.setDf b).sp = s.sp := rfl
@[simp] theorem State.setDf_stk (b : Bool) : (s.setDf b).stk = s.stk := rfl
@[simp] theorem State.setDf_dt (b : Bool) : (s.setDf b).dt = s.dt := rfl
@[simp] theorem State.setDf_st (b : Bool) : (s.setDf b).st = s.st := rfl
@[simp] theorem State.setDf_fb (b : Bool) : (s.setDf b).fb = s.fb := rfl
@[simp] theorem State.setDf_df (b : Bool) : (s.setDf b).df = b := rfl
@[simp] theorem State.setDf_keys (b : Bool) : (s.setDf b).keys = s.keys := rfl
@[simp] theorem State.setDf_mem (b : Bool) : (s.setDf b).mem = s.mem := rfl
@[simp] theorem State.setDf_draws (b : Bool) : (s.setDf b).draws = s.draws := rfl
@[simp] theorem State.setDf_getV (b : Bool) (r : Reg) : (s.setDf b).getV r = s.getV r := rfl
@[simp] theorem State.setDf_memRead (b : Bool) (c : Nat) : (s.setDf b).memRead c = s.memRead c := rfl
@[simp] theorem State.setDf_ea (b : Bool) (j : Nat) : (s.setDf b).ea j = s.ea j := rfl

/-! ## setFb -/

@[simp] theorem State.setFb_v (fb : Framebuffer) : (s.setFb fb).v = s.v := rfl
@[simp] theorem State.setFb_i (fb : Framebuffer) : (s.setFb fb).i = s.i := rfl
@[simp] theorem State.setFb_pc (fb : Framebuffer) : (s.setFb fb).pc = s.pc := rfl
@[simp] theorem State.setFb_sp (fb : Framebuffer) : (s.setFb fb).sp = s.sp := rfl
@[simp] theorem State.setFb_stk (fb : Framebuffer) : (s.setFb fb).stk = s.stk := rfl
@[simp] theorem State.setFb_dt (fb : Framebuffer) : (s.setFb fb).dt = s.dt := rfl
@[simp] theorem State.setFb_st (fb : Framebuffer) : (s.setFb fb).st = s.st := rfl
@[simp] theorem State.setFb_fb (fb : Framebuffer) : (s.setFb fb).fb = fb := rfl
@[simp] theorem State.setFb_df (fb : Framebuffer) : (s.setFb fb).df = s.df := rfl
@[simp] theorem State.setFb_keys (fb : Framebuffer) : (s.setFb fb).keys = s.keys := rfl
@[simp] theorem State.setFb_mem (fb : Framebuffer) : (s.setFb fb).mem = s.mem := rfl
@[simp] theorem State.setFb_draws (fb : Framebuffer) : (s.setFb fb).draws = s.draws := rfl
@[simp] theorem State.setFb_getV (fb : Framebuffer) (r : Reg) : (s.setFb fb).getV r = s.getV r := rfl
@[simp] theorem State.setFb_memRead (fb : Framebuffer) (c : Nat) : (s.setFb fb).memRead c = s.memRead c := rfl
@[simp] theorem State.setFb_ea (fb : Framebuffer) (j : Nat) : (s.setFb fb).ea j = s.ea j := rfl

/-! ## setKey -/

@[simp] theorem State.setKey_v (k : Fin 16) (p : Bool) : (s.setKey k p).v = s.v := rfl
@[simp] theorem State.setKey_i (k : Fin 16) (p : Bool) : (s.setKey k p).i = s.i := rfl
@[simp] theorem State.setKey_pc (k : Fin 16) (p : Bool) : (s.setKey k p).pc = s.pc := rfl
@[simp] theorem State.setKey_sp (k : Fin 16) (p : Bool) : (s.setKey k p).sp = s.sp := rfl
@[simp] theorem State.setKey_stk (k : Fin 16) (p : Bool) : (s.setKey k p).stk = s.stk := rfl
@[simp] theorem State.setKey_dt (k : Fin 16) (p : Bool) : (s.setKey k p).dt = s.dt := rfl
@[simp] theorem State.setKey_st (k : Fin 16) (p : Bool) : (s.setKey k p).st = s.st := rfl
@[simp] theorem State.setKey_fb (k : Fin 16) (p : Bool) : (s.setKey k p).fb = s.fb := rfl
@[simp] theorem State.setKey_df (k : Fin 16) (p : Bool) : (s.setKey k p).df = s.df := rfl
@[simp] theorem State.setKey_keys (k : Fin 16) (p : Bool) : (s.setKey k p).keys = s.keys.set k.val p k.isLt := rfl
@[simp] theorem State.setKey_mem (k : Fin 16) (p : Bool) : (s.setKey k p).mem = s.mem := rfl
@[simp] theorem State.setKey_draws (k : Fin 16) (p : Bool) : (s.setKey k p).draws = s.draws := rfl
@[simp] theorem State.setKey_getV (k : Fin 16) (p : Bool) (r : Reg) : (s.setKey k p).getV r = s.getV r := rfl
@[simp] theorem State.setKey_memRead (k : Fin 16) (p : Bool) (c : Nat) : (s.setKey k p).memRead c = s.memRead c := rfl
@[simp] theorem State.setKey_ea (k : Fin 16) (p : Bool) (j : Nat) : (s.setKey k p).ea j = s.ea j := rfl

/-! ## memWrite -/

@[simp] theorem State.memWrite_v (a : Nat) (b : Byte) : (s.memWrite a b).v = s.v := rfl
@[simp] theorem State.memWrite_i (a : Nat) (b : Byte) : (s.memWrite a b).i = s.i := rfl
@[simp] theorem State.memWrite_pc (a : Nat) (b : Byte) : (s.memWrite a b).pc = s.pc := rfl
@[simp] theorem State.memWrite_sp (a : Nat) (b : Byte) : (s.memWrite a b).sp = s.sp := rfl
@[simp] theorem State.memWrite_stk (a : Nat) (b : Byte) : (s.memWrite a b).stk = s.stk := rfl
@[simp] theorem State.memWrite_dt (a : Nat) (b : Byte) : (s.memWrite a b).dt = s.dt := rfl
@[simp] theorem State.memWrite_st (a : Nat) (b : Byte) : (s.memWrite a b).st = s.st := rfl
@[simp] theorem State.memWrite_fb (a : Nat) (b : Byte) : (s.memWrite a b).fb = s.fb := rfl
@[simp] theorem State.memWrite_df (a : Nat) (b : Byte) : (s.memWrite a b).df = s.df := rfl
@[simp] theorem State.memWrite_keys (a : Nat) (b : Byte) : (s.memWrite a b).keys = s.keys := rfl
@[simp] theorem State.memWrite_mem (a : Nat) (b : Byte) : (s.memWrite a b).mem = s.mem.write (a % Config.memSize) b := rfl
@[simp] theorem State.memWrite_draws (a : Nat) (b : Byte) : (s.memWrite a b).draws = s.draws := rfl
@[simp] theorem State.memWrite_getV (a : Nat) (b : Byte) (r : Reg) : (s.memWrite a b).getV r = s.getV r := rfl
@[simp] theorem State.memWrite_ea (a : Nat) (b : Byte) (j : Nat) : (s.memWrite a b).ea j = s.ea j := rfl

/-! ## Reading a register after a write (R20) -/

/-- Everything a register write does to register reads. -/
theorem State.setV_getV (r q : Reg) (b : Byte) : (s.setV r b).getV q = if q = r then b else s.getV q := by
  simp only [State.getV, State.setV, Fin.getElem_fin, Vector.getElem_set, Fin.ext_iff, eq_comm]

@[simp] theorem State.setV_getV_same (r : Reg) (b : Byte) : (s.setV r b).getV r = b := by
  simp [State.setV_getV]

theorem State.setV_getV_ne {r q : Reg} (b : Byte) (h : q ≠ r) : (s.setV r b).getV q = s.getV q := by
  simp [State.setV_getV, h]

/-- Everything a key write does to the keypad (R252). -/
theorem State.setKey_keys_get (k q : Fin 16) (p : Bool) :
    (s.setKey k p).keys[q] = if q = k then p else s.keys[q] := by
  simp only [State.setKey, Fin.getElem_fin, Vector.getElem_set, Fin.ext_iff, eq_comm]

/-! ## beginStep (R121) -/

@[simp] theorem State.beginStep_eq : s.beginStep = s.setDf false := rfl

@[simp] theorem State.trapped_eq : s.trapped = s.setDf false := rfl

end Sys2Proof.Machine
end

