-- ==== Sys2Proof/Laws/Display.lean ====
section
/-! SUPPORT. What the display buffer's operations do, pixel by pixel (R190 to R195): the blit flips exactly the pixels
under the visible set bits of the sprite, and reports a collision exactly when one of them was lit. -/

namespace Sys2Proof.Machine

/-- The sprite has a set bit over (px, py) when drawn at the origin (vx, vy). -/
def spriteBit (rows : List Byte) (vx vy px py : Nat) : Bool :=
  decide (vx ≤ px ∧ px < vx + 8 ∧ vy ≤ py) && ((rows[py - vy]?).getD 0).getLsbD (7 - (px - vx))

theorem spriteBit_iff {rows : List Byte} {vx vy px py : Nat} : spriteBit rows vx vy px py = true ↔
    (vx ≤ px ∧ px < vx + 8 ∧ vy ≤ py) ∧ ((rows[py - vy]?).getD 0).getLsbD (7 - (px - vx)) = true := by
  rw [spriteBit, Bool.and_eq_true, decide_eq_true_eq]

/-- Row r of the sprite is the byte at I + r, and there are n rows (R192). -/
theorem spriteRows_get (s : State) (n r : Nat) :
    (s.spriteRows n)[r]? = if r < n then some (s.memRead (s.i.toNat + r)) else none := by
  have hm : s.memRead (s.ea r) = s.memRead (s.i.toNat + r) := by simp [State.memRead, State.ea]
  by_cases h : r < n <;> simp [State.spriteRows, h, hm]

/-- The blit's sprite bits are those the terms of the claims speak of (R192). -/
theorem spriteBit_spriteRows {s : State} {x y : Reg} {n px py : Nat} :
    spriteBit (s.spriteRows n) (originColumn (s.getV x)) (originRow (s.getV y)) px py = true ↔
      s.SpriteCovers x y n px py := by
  rw [spriteBit_iff, spriteRows_get]
  show (_ % 64 ≤ px ∧ px < _ % 64 + 8 ∧ _ % 32 ≤ py) ∧ _ ↔
    (_ % 64 ≤ px ∧ px < _ % 64 + 8) ∧ (_ % 32 ≤ py ∧ py < _ % 32 + n) ∧ _
  by_cases h : py - (s.getV y).toNat % 32 < n
  · rw [if_pos (show py - originRow (s.getV y) < n from h), Option.getD_some]
    constructor
    · rintro ⟨⟨h1, h2, h3⟩, h4⟩
      exact ⟨⟨h1, h2⟩, ⟨h3, by omega⟩, h4⟩
    · rintro ⟨⟨h1, h2⟩, ⟨h3, -⟩, h4⟩
      exact ⟨⟨h1, h2, h3⟩, h4⟩
  · rw [if_neg (show ¬ py - originRow (s.getV y) < n from h)]
    constructor
    · rintro ⟨-, h4⟩
      simp at h4
    · rintro ⟨-, ⟨h3, h5⟩, -⟩
      omega

/-- A pixel inside the plane has the index py*64 + px, one outside has none (R82). -/
theorem pixelIndex_eq_some {px py : Nat} {idx : Fin 2048} :
    pixelIndex px py = some idx ↔ (px < 64 ∧ py < 32) ∧ idx.val = py * 64 + px := by
  simp only [pixelIndex]
  split <;> rename_i h
  · simp [h, Fin.ext_iff, eq_comm]
  · simp [h]

theorem pixelIndex_eq_none {px py : Nat} : pixelIndex px py = none ↔ ¬ (px < 64 ∧ py < 32) := by
  simp only [pixelIndex]
  split <;> simp [*]

/-- A lit pixel is inside the plane. -/
theorem pixel_inside {fb : Framebuffer} {px py : Nat} (h : fb.pixel px py = true) : px < 64 ∧ py < 32 := by
  by_contra hout
  simp [Framebuffer.pixel, pixelIndex_eq_none.mpr hout] at h

/-- Two planes with the same pixels are the same plane. -/
theorem Framebuffer.ext_pixel {fb gb : Framebuffer}
    (h : ∀ px py, px < 64 → py < 32 → fb.pixel px py = gb.pixel px py) : fb = gb := by
  apply Vector.ext
  intro idx hidx
  have hp : pixelIndex (idx % 64) (idx / 64) = some ⟨idx, hidx⟩ :=
    pixelIndex_eq_some.mpr ⟨by omega, by simp only; omega⟩
  have := h (idx % 64) (idx / 64) (by omega) (by omega)
  simpa [Framebuffer.pixel, hp] using this

/-- After `clear()` every pixel is 0 (R190). -/
@[simp] theorem clear_pixel (px py : Nat) : Framebuffer.clear.pixel px py = false := by
  simp only [Framebuffer.pixel, Framebuffer.clear]
  split <;> simp

/-- Everything one set sprite bit does to the plane: its own pixel is flipped if it is inside. -/
theorem flipPixel_pixel (px py qx qy : Nat) (d : Framebuffer × Bool) : (flipPixel px py d).1.pixel qx qy =
    (d.1.pixel qx qy ^^ decide ((qx = px ∧ qy = py) ∧ (px < 64 ∧ py < 32))) := by
  cases hp : pixelIndex px py with
  | none =>
    have := pixelIndex_eq_none.mp hp
    simp [flipPixel, hp, this]
  | some idx =>
    obtain ⟨hin, hidx⟩ := pixelIndex_eq_some.mp hp
    cases hq : pixelIndex qx qy with
    | none =>
      have hout := pixelIndex_eq_none.mp hq
      have : ¬ (qx = px ∧ qy = py) := fun h => hout ⟨h.1 ▸ hin.1, h.2 ▸ hin.2⟩
      simp [Framebuffer.pixel, hq, this]
    | some jdx =>
      obtain ⟨hjn, hjdx⟩ := pixelIndex_eq_some.mp hq
      simp only [flipPixel, hp, Framebuffer.pixel, hq, Fin.getElem_fin, Vector.getElem_set, hin, and_self, and_true]
      by_cases he : idx.val = jdx.val
      · have hxy : qx = px ∧ qy = py := by omega
        simp [he, hxy]
      · have hxy : ¬ (qx = px ∧ qy = py) := by rintro ⟨rfl, rfl⟩; omega
        simp [he, hxy]

/-- A collision is remembered: the flag, or the pixel under the bit was lit. -/
theorem flipPixel_hit (px py : Nat) (d : Framebuffer × Bool) : (flipPixel px py d).2 = (d.2 || d.1.pixel px py) := by
  cases hp : pixelIndex px py <;> simp [flipPixel, Framebuffer.pixel, hp]

/-- Everything the bits of one row do to the plane. -/
theorem blitBits_pixel (vx py : Nat) (row : Byte) (qx qy : Nat) : ∀ (left : Nat) (d : Framebuffer × Bool), left ≤ 8 →
    (blitBits vx py row left d).1.pixel qx qy = (d.1.pixel qx qy ^^ decide ((qx < 64 ∧ qy < 32) ∧
      (qy = py ∧ vx + (8 - left) ≤ qx ∧ qx < vx + 8) ∧ row.getLsbD (7 - (qx - vx)) = true))
  | 0, d, _ => by
    have : ¬ (vx + (8 - 0) ≤ qx ∧ qx < vx + 8) := by omega
    simp [blitBits, this]
  | left + 1, d, h => by
    rw [blitBits, blitBits_pixel vx py row qx qy left _ (by omega)]
    have hb : 7 - (7 - left) = left := by omega
    simp only [hb]
    by_cases hx : qx = vx + (7 - left) ∧ qy = py
    · obtain ⟨rfl, rfl⟩ := hx
      have h2 : ¬ (vx + (8 - left) ≤ vx + (7 - left)) := by omega
      by_cases hr : row.getLsbD left = true
      · simp [hr, hb, h2, flipPixel_pixel]
        omega
      · simp [hr, hb, h2]
    · have hiff : (qy = py ∧ vx + (8 - left) ≤ qx ∧ qx < vx + 8) ↔
          (qy = py ∧ vx + (8 - (left + 1)) ≤ qx ∧ qx < vx + 8) := by omega
      by_cases hr : row.getLsbD left = true
      · simp [hr, hiff, flipPixel_pixel, hx]
      · simp [hr, hiff]

/-- When the bits of one row report a collision. -/
theorem blitBits_hit (vx py : Nat) (row : Byte) : ∀ (left : Nat) (d : Framebuffer × Bool), left ≤ 8 →
    ((blitBits vx py row left d).2 = true ↔ d.2 = true ∨
      ∃ qx, (vx + (8 - left) ≤ qx ∧ qx < vx + 8) ∧ row.getLsbD (7 - (qx - vx)) = true ∧ d.1.pixel qx py = true)
  | 0, d, _ => by
    have : ∀ qx, ¬ (vx + (8 - 0) ≤ qx ∧ qx < vx + 8) := by omega
    simp [blitBits, this]
  | left + 1, d, h => by
    rw [blitBits, blitBits_hit vx py row left _ (by omega)]
    have hb : 7 - (7 - left) = left := by omega
    simp only [hb]
    have hsame : ∀ qx, vx + (8 - left) ≤ qx →
        (if row.getLsbD left = true then flipPixel (vx + (7 - left)) py d else d).1.pixel qx py = d.1.pixel qx py := by
      intro qx hq
      have : qx ≠ vx + (7 - left) := by omega
      split
      · simp [flipPixel_pixel, this]
      · rfl
    constructor
    · rintro (h2 | ⟨qx, ⟨hlo, hhi⟩, hr, hp⟩)
      · split at h2
        · rename_i hr
          rw [flipPixel_hit, Bool.or_eq_true] at h2
          rcases h2 with h2 | h2
          · exact .inl h2
          · refine .inr ⟨vx + (7 - left), ⟨by omega, by omega⟩, ?_, h2⟩
            have : 7 - (vx + (7 - left) - vx) = left := by omega
            rw [this]; exact hr
        · exact .inl h2
      · rw [hsame qx hlo] at hp
        exact .inr ⟨qx, ⟨by omega, hhi⟩, hr, hp⟩
    · rintro (h2 | ⟨qx, ⟨hlo, hhi⟩, hr, hp⟩)
      · left
        split
        · rw [flipPixel_hit, h2, Bool.true_or]
        · exact h2
      · by_cases hq : qx = vx + (7 - left)
        · subst hq
          have : 7 - (vx + (7 - left) - vx) = left := by omega
          rw [this] at hr
          left
          rw [if_pos hr, flipPixel_hit, hp, Bool.or_true]
        · right
          refine ⟨qx, ⟨by omega, hhi⟩, hr, ?_⟩
          rw [hsame qx (by omega)]
          exact hp

/-- The first row of a sprite, and the others one row lower. -/
theorem spriteBit_cons (row : Byte) (rest : List Byte) (vx py qx qy : Nat) :
    spriteBit (row :: rest) vx py qx qy =
      ((decide (qy = py ∧ vx ≤ qx ∧ qx < vx + 8) && row.getLsbD (7 - (qx - vx))) ||
        spriteBit rest vx (py + 1) qx qy) := by
  simp only [spriteBit]
  by_cases h1 : qy = py
  · subst h1
    have : ¬ (vx ≤ qx ∧ qx < vx + 8 ∧ qy + 1 ≤ qy) := by omega
    by_cases h2 : vx ≤ qx ∧ qx < vx + 8 <;> simp [h2]
  · by_cases h2 : py ≤ qy
    · have h3 : py + 1 ≤ qy := by omega
      have h4 : qy - py = (qy - (py + 1)) + 1 := by omega
      simp [h1, h2, h3, h4]
    · have h3 : ¬ py + 1 ≤ qy := by omega
      simp [h1, h2, h3]

/-- EVERYTHING A BLIT DOES TO THE PLANE: the visible pixels under set sprite bits are flipped, no other (R191, R192). -/
theorem blitRows_pixel (vx : Nat) (qx qy : Nat) : ∀ (rows : List Byte) (py : Nat) (d : Framebuffer × Bool),
    (blitRows vx py rows d).1.pixel qx qy =
      (d.1.pixel qx qy ^^ (decide (qx < 64 ∧ qy < 32) && spriteBit rows vx py qx qy))
  | [], py, d => by simp [blitRows, spriteBit]
  | row :: rest, py, d => by
    rw [blitRows, blitRows_pixel vx qx qy rest (py + 1), blitBits_pixel vx py row qx qy 8 d (Nat.le_refl 8),
      spriteBit_cons]
    by_cases hin : qx < 64 ∧ qy < 32
    · by_cases hy : qy = py
      · subst hy
        have : spriteBit rest vx (qy + 1) qx qy = false := by simp [spriteBit]
        simp [hin, this]
      · simp [hin, hy]
    · simp [hin]

/-- WHEN A BLIT REPORTS A COLLISION: exactly when a set sprite bit lies over a lit pixel (R195). -/
theorem blitRows_hit (vx : Nat) : ∀ (rows : List Byte) (py : Nat) (d : Framebuffer × Bool),
    ((blitRows vx py rows d).2 = true ↔ d.2 = true ∨
      ∃ qx qy, spriteBit rows vx py qx qy = true ∧ d.1.pixel qx qy = true)
  | [], py, d => by simp [blitRows, spriteBit]
  | row :: rest, py, d => by
    rw [blitRows, blitRows_hit vx rest (py + 1), blitBits_hit vx py row 8 d (Nat.le_refl 8)]
    have hsame : ∀ qx qy, spriteBit rest vx (py + 1) qx qy = true →
        (blitBits vx py row 8 d).1.pixel qx qy = d.1.pixel qx qy := by
      intro qx qy hs
      have hy : qy ≠ py := by
        simp only [spriteBit, Bool.and_eq_true, decide_eq_true_eq] at hs
        omega
      rw [blitBits_pixel vx py row qx qy 8 d (Nat.le_refl 8)]
      simp [hy]
    constructor
    · rintro ((h | ⟨qx, ⟨hlo, hhi⟩, hr, hp⟩) | ⟨qx, qy, hs, hp⟩)
      · exact .inl h
      · exact .inr ⟨qx, py, by simp [spriteBit_cons, hr, hhi]; omega, hp⟩
      · exact .inr ⟨qx, qy, by simp [spriteBit_cons, hs], by rw [← hsame qx qy hs]; exact hp⟩
    · rintro (h | ⟨qx, qy, hs, hp⟩)
      · exact .inl (.inl h)
      · rw [spriteBit_cons, Bool.or_eq_true, Bool.and_eq_true, decide_eq_true_eq] at hs
        rcases hs with ⟨⟨rfl, hlo, hhi⟩, hr⟩ | hs
        · exact .inl (.inr ⟨qx, ⟨by omega, hhi⟩, hr, hp⟩)
        · exact .inr ⟨qx, qy, hs, by rw [hsame qx qy hs]; exact hp⟩

end Sys2Proof.Machine
end

