-- ==== Sys2Proof/Laws/Memory.lean ====
section
/-! SUPPORT. Main memory: reads after writes, and that every operation keeps the canonical form (R66, R74). -/

namespace Sys2Proof.Machine

/-- Every entry below the first one of a rising list is above an address below it. -/
theorem Memory.rising_tail {k a : Nat} {b : Byte} {rest : Memory}
    (h : ((k, b) :: rest : Memory).Pairwise (fun c d => c.1 < d.1)) (ha : a ≤ k) : ∀ c ∈ rest, a < c.1 := by
  intro c hc
  have := List.rel_of_pairwise_cons h hc
  omega

/-- An address below every entry reads its reset byte. -/
theorem Memory.read_of_below {m : Memory} {a : Nat} (h : ∀ c ∈ m, a < c.1) : m.read a = Memory.resetByte a := by
  induction m with
  | nil => rfl
  | cons c rest ih =>
    have hc : a < c.1 := h c (by simp)
    have : a ≠ c.1 := by omega
    simp only [Memory.read, this, if_false]
    exact ih fun d hd => h d (by simp [hd])

/-- Everything a write does to reads of a memory in canonical form. -/
theorem Memory.read_write {m : Memory} (h : m.wf) (a : Nat) (b : Byte) (c : Nat) :
    (m.write a b).read c = if c = a then b else m.read c := by
  obtain ⟨hall, hp⟩ := h
  induction m with
  | nil =>
    by_cases hb : b = Memory.resetByte a <;> by_cases hc : c = a <;> simp [Memory.write, Memory.read, hb, hc]
  | cons e rest ih =>
    obtain ⟨k, d⟩ := e
    have ih := ih (fun x hx => hall x (by simp [hx])) (List.Pairwise.of_cons hp)
    simp only [Memory.write]
    split
    · rename_i hlt
      have hlow : Memory.read ((k, d) :: rest) a = Memory.resetByte a :=
        Memory.read_of_below fun x hx => by
          rcases List.mem_cons.mp hx with rfl | hx
          · exact hlt
          · exact Memory.rising_tail hp (Nat.le_of_lt hlt) x hx
      split
      · rename_i hb
        by_cases hc : c = a
        · subst hc; simp [hlow, hb]
        · simp [hc]
      · simp only [Memory.read]
    · split
      · rename_i hak
        subst hak
        split
        · rename_i hb
          by_cases hc : c = a
          · subst hc
            simp [hb, Memory.read_of_below (Memory.rising_tail hp (Nat.le_refl _))]
          · simp [Memory.read, hc]
        · by_cases hc : c = a <;> simp [Memory.read, hc]
      · rename_i hne hak
        simp only [Memory.read, ih]
        by_cases hck : c = k
        · subst hck
          have : ¬ c = a := fun he => hak he.symm
          simp [this]
        · simp [hck]

/-- Where the entries of a written memory come from. -/
theorem Memory.mem_write {m : Memory} {a : Nat} {b : Byte} {c : Host.Cell} (h : c ∈ m.write a b) :
    c ∈ m ∨ (c = (a, b) ∧ b ≠ Memory.resetByte a) := by
  induction m with
  | nil =>
    simp only [Memory.write] at h
    split at h
    · exact absurd h (by simp)
    · exact .inr ⟨by simpa using h, by assumption⟩
  | cons e rest ih =>
    obtain ⟨k, d⟩ := e
    simp only [Memory.write] at h
    split at h
    · split at h
      · exact .inl h
      · rcases List.mem_cons.mp h with rfl | h
        · exact .inr ⟨rfl, by assumption⟩
        · exact .inl h
    · split at h
      · split at h
        · exact .inl (List.mem_cons_of_mem _ h)
        · rcases List.mem_cons.mp h with rfl | h
          · exact .inr ⟨rfl, by assumption⟩
          · exact .inl (List.mem_cons_of_mem _ h)
      · rcases List.mem_cons.mp h with rfl | h
        · exact .inl (by simp)
        · rcases ih h with h | h
          · exact .inl (List.mem_cons_of_mem _ h)
          · exact .inr h

/-- A write of one byte keeps the canonical form. -/
theorem Memory.write_wf {m : Memory} (h : m.wf) {a : Nat} (ha : a < Config.memSize) (b : Byte) : (m.write a b).wf := by
  refine ⟨fun c hc => ?_, ?_⟩
  · rcases Memory.mem_write hc with hc | ⟨rfl, hb⟩
    · exact h.1 c hc
    · exact ⟨ha, hb⟩
  · have hp := h.2
    clear h
    induction m with
    | nil =>
      simp only [Memory.write]
      split <;> simp
    | cons e rest ih =>
      obtain ⟨k, d⟩ := e
      have ih := ih (List.Pairwise.of_cons hp)
      simp only [Memory.write]
      split
      · rename_i hlt
        split
        · exact hp
        · refine List.Pairwise.cons (fun x hx => ?_) hp
          rcases List.mem_cons.mp hx with rfl | hx
          · exact hlt
          · exact Memory.rising_tail hp (Nat.le_of_lt hlt) x hx
      · split
        · rename_i hak
          split
          · exact List.Pairwise.of_cons hp
          · subst hak
            exact List.Pairwise.cons (fun x hx => List.rel_of_pairwise_cons hp hx) (List.Pairwise.of_cons hp)
        · rename_i hnlt hne
          refine List.Pairwise.cons (fun x hx => ?_) ih
          rcases Memory.mem_write hx with hx | ⟨rfl, -⟩
          · exact List.rel_of_pairwise_cons hp hx
          · show k < a
            omega

/-- The masked write keeps the canonical form at every address. -/
theorem State.memWrite_wf {s : State} (h : s.mem.wf) (a : Nat) (b : Byte) : (s.memWrite a b).mem.wf :=
  Memory.write_wf h (Nat.mod_lt _ (by decide)) b

/-- Everything a masked write does to masked reads (R66). -/
theorem State.memWrite_memRead {s : State} (h : s.mem.wf) (a : Nat) (b : Byte) (c : Nat) :
    (s.memWrite a b).memRead c = if c % 4096 = a % 4096 then b else s.memRead c := by
  simp only [State.memRead, State.memWrite, Memory.read_write h, Config.memSize]

/-- A block of bytes that ends inside memory keeps the canonical form. -/
theorem Memory.writeBytes_wf {bytes : List Byte} : ∀ {m : Memory} {a : Nat}, m.wf →
    a + bytes.length ≤ Config.memSize → (m.writeBytes a bytes).wf := by
  induction bytes with
  | nil => exact fun h _ => h
  | cons b rest ih =>
    intro m a h hlen
    simp only [List.length_cons] at hlen
    exact ih (Memory.write_wf h (by omega) b) (by omega)

/-- Everything a block write does to reads (R275). -/
theorem Memory.read_writeBytes {bytes : List Byte} : ∀ {m : Memory} {a : Nat}, m.wf →
    a + bytes.length ≤ Config.memSize → ∀ c, (m.writeBytes a bytes).read c =
      if a ≤ c then (bytes[c - a]?).getD (m.read c) else m.read c := by
  induction bytes with
  | nil => intro m a _ _ c; simp [Memory.writeBytes]
  | cons b rest ih =>
    intro m a h hlen c
    simp only [List.length_cons] at hlen
    rw [Memory.writeBytes, ih (Memory.write_wf h (by omega) b) (by omega), Memory.read_write h]
    by_cases h1 : c = a
    · subst h1; simp
    · by_cases h2 : a ≤ c
      · have h3 : a + 1 ≤ c := by omega
        have h4 : c - a = (c - (a + 1)) + 1 := by omega
        simp [h1, h2, h3, h4]
      · have h3 : ¬ a + 1 ≤ c := by omega
        simp [h1, h2, h3]

/-- Reset memory is in canonical form: it lists nothing. -/
theorem State.reset_mem_wf : State.reset.mem.wf :=
  ⟨fun _ h => absurd h (by simp [State.reset]), List.Pairwise.nil⟩

end Sys2Proof.Machine
end

