-- ==== Sys2Proof/Laws/Ops.lean ====
section
/-! SUPPORT. What each shared operation of the step cycle can do, said once: the stack, the driver's advance, the
skip, the fetch, and a step. -/

namespace Sys2Proof.Machine

/-! ## The stack (R28) -/

/-- A push completes exactly when SP < 16, and writes one entry (R143). -/
theorem State.push_eq_some {s t : State} {w : Word} : s.push w = some t ↔
    ∃ h : s.sp.val < 16, t = { s with stk := s.stk.set s.sp.val w h, sp := ⟨s.sp.val + 1, by omega⟩ } := by
  simp only [State.push]
  split <;> rename_i h
  · simp [h, eq_comm]
  · simp [h]

/-- A push fails exactly when SP = 16 (R232). -/
theorem State.push_eq_none {s : State} {w : Word} : s.push w = none ↔ s.sp.val = 16 := by
  have := s.sp.isLt
  simp only [State.push]
  split <;> simp <;> omega

/-- A pop completes exactly when SP > 0, gives the top entry and changes SP only (R141, R29). -/
theorem State.pop_eq_some {s t : State} {w : Word} : s.pop = some (w, t) ↔
    ∃ h : 0 < s.sp.val, w = s.stk[s.sp.val - 1]'(by omega) ∧ t = { s with sp := ⟨s.sp.val - 1, by omega⟩ } := by
  simp only [State.pop]
  split <;> rename_i h
  · simp [h, eq_comm]
  · simp [h]

/-- A pop fails exactly when SP = 0 (R233). -/
theorem State.pop_eq_none {s : State} : s.pop = none ↔ s.sp.val = 0 := by
  simp only [State.pop]
  split <;> simp <;> omega

/-! ## The random draw (R40) -/

@[simp] theorem State.takeDraw_fst (s : State) : s.takeDraw.1 = Config.randU8 s.draws := rfl

@[simp] theorem State.takeDraw_snd (s : State) : s.takeDraw.2 = { s with draws := s.draws + 1 } := rfl

/-! ## The driver's advance (R125, R126) -/

@[simp] theorem finish_advance (s : State) : finish .advance s = .next (s.setPc (s.pc + 2)) := rfl

@[simp] theorem finish_absolute (s : State) : finish .absolute s = .next s := rfl

@[simp] theorem finish_rearm (s : State) : finish .rearm s = .next s := rfl

/-- Everything a skip does: pc + 4 or pc + 2 (R126). -/
theorem skipIf_eq (c : Bool) (s : State) :
    skipIf c s = .next (s.setPc (if c then s.pc + 4 else s.pc + 2)) := by
  cases c
  · rfl
  · simp only [skipIf, if_true, finish_advance, State.setPc_pc]
    have : s.pc + 2 + 2 = s.pc + 4 := by rw [BitVec.add_assoc]; rfl
    rw [this]
    rfl

/-! ## Fetch and decode (R122, R123) -/

theorem fetch_of_lt {s : State} (h : s.pc.toNat + 1 < 4096) :
    fetch s = .ok (opcodeOf (s.mem.read s.pc.toNat) (s.mem.read (s.pc.toNat + 1))) := if_neg (Nat.not_le.mpr h)

theorem fetch_of_ge {s : State} (h : s.pc.toNat + 1 ≥ 4096) : fetch s = .error .memoryOutOfRange := if_pos h

/-- The fetch answers a word exactly when pc + 1 < 4096, and it is the big-endian word at pc. -/
theorem fetch_eq_ok {s : State} {op : Word} : fetch s = .ok op ↔
    s.pc.toNat + 1 < 4096 ∧ op = opcodeOf (s.mem.read s.pc.toNat) (s.mem.read (s.pc.toNat + 1)) := by
  by_cases h : s.pc.toNat + 1 < 4096
  · rw [fetch_of_lt h, Except.ok.injEq, eq_comm]
    exact ⟨fun he => ⟨h, he⟩, And.right⟩
  · rw [fetch_of_ge (Nat.not_lt.mp h)]
    exact ⟨fun he => (nomatch he), fun he => absurd he.1 h⟩

/-- The fetch's one trap (R234). -/
theorem fetch_eq_error {s : State} {k : Fault} : fetch s = .error k ↔
    s.pc.toNat + 1 ≥ 4096 ∧ k = .memoryOutOfRange := by
  by_cases h : s.pc.toNat + 1 < 4096
  · rw [fetch_of_lt h]
    exact ⟨fun he => (nomatch he), fun he => absurd h (Nat.not_lt.mpr he.1)⟩
  · rw [fetch_of_ge (Nat.not_lt.mp h), Except.error.injEq, eq_comm]
    exact ⟨fun he => ⟨Nat.not_lt.mp h, he⟩, And.right⟩

theorem decodeOp_eq_ok {op : Word} {i : Instr} : decodeOp op = .ok i ↔ decodeWord op = .ok i := by
  simp only [decodeOp]
  split <;> simp [*]

theorem decodeOp_eq_error {op : Word} {k : Fault} : decodeOp op = .error k ↔
    (∃ e, decodeWord op = .error e) ∧ k = .invalidOpcode := by
  simp only [decodeOp]
  split <;> simp [*, eq_comm]

/-- Fetch and decode look at pc and memory only. -/
theorem fetchInstr_setDf (s : State) (b : Bool) : fetchInstr (s.setDf b) = fetchInstr s := rfl

/-- Fetch and decode answer an instruction exactly when a word is fetched and it decodes. -/
theorem fetchInstr_eq_ok {s : State} {i : Instr} : fetchInstr s = .ok i ↔
    ∃ op, fetch s = .ok op ∧ decodeWord op = .ok i := by
  simp only [fetchInstr]
  split <;> simp [*, decodeOp_eq_ok]

/-- Fetch and decode trap exactly so, the fetch check first (R238). -/
theorem fetchInstr_eq_error {s : State} {k : Fault} : fetchInstr s = .error k ↔
    (s.pc.toNat + 1 ≥ 4096 ∧ k = .memoryOutOfRange) ∨
    (∃ op e, fetch s = .ok op ∧ decodeWord op = .error e ∧ k = .invalidOpcode) := by
  simp only [fetchInstr]
  split
  · rename_i op h
    have := (fetch_eq_ok.mp h).1
    simp [h, decodeOp_eq_error]
    omega
  · rename_i k' h
    obtain ⟨hpc, rfl⟩ := fetch_eq_error.mp h
    simp only [Except.error.injEq, reduceCtorEq, false_and, exists_false, or_false, h]
    exact ⟨fun hk => ⟨hpc, hk.symm⟩, fun hk => hk.2.symm⟩

/-! ## A step (R120) -/

/-- EVERYTHING A STEP CAN DO: run the fetched instruction in the state with DF cleared, or trap before executing. -/
theorem step_cases (s : State) :
    (∃ i, fetchInstr s = .ok i ∧ step s = exec i (s.setDf false)) ∨
    (∃ k, fetchInstr s = .error k ∧ step s = .fault k) := by
  unfold step
  simp only [State.beginStep_eq, fetchInstr_setDf]
  cases fetchInstr s with
  | ok i => exact .inl ⟨i, rfl, rfl⟩
  | error k => exact .inr ⟨k, rfl, rfl⟩

theorem step_of_ok {s : State} {i : Instr} (h : fetchInstr s = .ok i) : step s = exec i (s.setDf false) := by
  rcases step_cases s with ⟨j, hj, hs⟩ | ⟨k, hk, -⟩
  · rw [h] at hj; cases hj; exact hs
  · rw [h] at hk; cases hk

theorem step_of_error {s : State} {k : Fault} (h : fetchInstr s = .error k) : step s = .fault k := by
  rcases step_cases s with ⟨i, hi, -⟩ | ⟨j, hj, hs⟩
  · rw [h] at hi; cases hi
  · rw [h] at hj; cases hj; exact hs

end Sys2Proof.Machine
end

