-- ==== Sys2Proof/Laws/HostOps.lean ====
section
/-! SUPPORT. What the operations of R7 can do, said once (R131, R250, R275). -/

namespace Sys2Proof.Machine

/-- One tick never goes below 0 (R30, R250). -/
@[simp] theorem tickDown_toNat (t : Byte) : (tickDown t).toNat = t.toNat - 1 := by
  revert t; decide

/-- EVERYTHING `step()` CAN ANSWER THE HOST: ok and the next state, or a trap that only clears DF, or a refusal. -/
theorem State.stepOp_cases (s : State) :
    (∃ t, step s = .next t ∧ s.stepOp = (t, .ok)) ∨
    (∃ k, step s = .fault k ∧ s.stepOp = (s.setDf false, .trapped k)) ∨
    (∃ r, step s = .refused r ∧ s.stepOp = (s, .refused r)) := by
  unfold State.stepOp
  cases step s with
  | next t => exact .inl ⟨t, rfl, rfl⟩
  | fault k => exact .inr (.inl ⟨k, rfl, rfl⟩)
  | refused r => exact .inr (.inr ⟨r, rfl, rfl⟩)

/-- Everything a load can do: too large and nothing written, or the block written at 0x200 (R275). -/
theorem State.loadRom_cases (s : State) (bytes : List Byte) :
    (bytes.length > 3584 ∧ s.loadRom bytes = (s, .tooLarge)) ∨
    (bytes.length ≤ 3584 ∧ s.loadRom bytes = ({ s with mem := s.mem.writeBytes 0x200 bytes }, .ok)) := by
  by_cases h : bytes.length > 3584
  · exact .inl ⟨h, if_pos h⟩
  · exact .inr ⟨Nat.not_lt.mp h, if_neg h⟩

@[simp] theorem performAll_nil (s : State) : performAll [] s = (s, []) := rfl

theorem performAll_cons (op : HostOp) (ops : List HostOp) (s : State) : performAll (op :: ops) s =
    ((performAll ops (perform op s).1).1, (perform op s).2 :: (performAll ops (perform op s).1).2) := rfl

/-- THE INDUCTION over reachable states, packaged once (R45). -/
theorem Reachable.induct {P : State → Prop} (h0 : P State.reset) (hop : ∀ op s, P s → P (perform op s).1) {s : State}
    (h : Reachable s) : P s := by
  induction h with
  | construct => exact h0
  | operation op _ ih => exact hop op _ ih

end Sys2Proof.Machine
end

