-- ==== Sys2Proof/Laws/Operands.lean ====
section
/-! SUPPORT. What the operand forms and the flag computations give (R92, R161, R200, R202, R220, R222). -/

namespace Sys2Proof.Machine

/-! ## Operand forms -/

/-- The register range is inclusive of x (R222). -/
@[simp] theorem mem_regsUpTo {x r : Reg} : r ∈ regsUpTo x ↔ r ≤ x := by
  revert x r; decide

/-- The register range names no register twice. -/
theorem regsUpTo_nodup (x : Reg) : (regsUpTo x).Nodup := (List.nodup_finRange 16).take

@[simp] theorem zext_toNat (nnn : Addr) : (zext nnn).toNat = nnn.toNat := by
  have := nnn.isLt
  simp only [zext, BitVec.toNat_setWidth]
  omega

@[simp] theorem offsetTarget_toNat (nnn : Addr) (b : Byte) :
    (offsetTarget nnn b).toNat = (nnn.toNat + b.toNat) % 4096 := by
  simp only [offsetTarget, Config.memSize, BitVec.toNat_ofNat]
  omega

@[simp] theorem glyphAddress_toNat (b : Byte) : (glyphAddress b).toNat = b.toNat % 16 * 5 := by
  simp only [glyphAddress, Config.glyphBytes, BitVec.toNat_ofNat]
  omega

@[simp] theorem keyIndex_val (b : Byte) : (keyIndex b).val = b.toNat % 16 := rfl

theorem ea_eq (s : State) (k : Nat) : s.ea k = (s.i.toNat + k) % 4096 := rfl

/-- Effective addresses of one instruction are distinct (R75): at most 16 consecutive addresses modulo 4096. -/
theorem ea_inj (s : State) {j k : Nat} (hj : j < 4096) (hk : k < 4096) : s.ea j = s.ea k ↔ j = k := by
  simp only [ea_eq]
  omega

/-- The key wait finds the lowest pressed key (R202). -/
theorem lowestKey_eq_some {s : State} {k : Fin 16} :
    s.lowestKey = some k ↔ s.keys[k] = true ∧ ∀ j < k, s.keys[j] = false := by
  have hlt : ∀ i j : Fin 16, i < j ↔ i.val < j.val := fun _ _ => Iff.rfl
  rw [State.lowestKey, List.find?_eq_some_iff_getElem]
  constructor
  · rintro ⟨hk, n, hn, he, hmin⟩
    simp only [List.getElem_finRange, Fin.cast_mk] at he
    subst he
    refine ⟨hk, fun j hj => ?_⟩
    have := hmin j.val hj
    simpa using this
  · rintro ⟨hk, hmin⟩
    refine ⟨hk, k.val, by simp, by simp, fun j hj => ?_⟩
    have := hmin ⟨j, by omega⟩ hj
    simpa using this

/-- The key wait finds nothing exactly when no key is pressed (R202). -/
theorem lowestKey_eq_none {s : State} : s.lowestKey = none ↔ ∀ k : Fin 16, s.keys[k] = false := by
  simp [State.lowestKey, List.find?_eq_none]

/-! ## Flags -/

@[simp] theorem flagBit_toNat (c : Bool) : (flagBit c).toNat = if c then 1 else 0 := by
  cases c <;> rfl

/-- The carry law (R168). -/
theorem addCarry_law (a b : Byte) : (addCarry a b).1.toNat + 256 * (addCarry a b).2.toNat = a.toNat + b.toNat := by
  have := a.isLt
  have := b.isLt
  simp only [addCarry, BitVec.toNat_add, flagBit_toNat, decide_eq_true_eq]
  split <;> omega

/-- The borrow law (R169): 256 * NOT borrow more than the true difference is the result plus 256. -/
theorem subNotBorrow_law (a b : Byte) :
    (subNotBorrow a b).1.toNat + b.toNat + 256 * (subNotBorrow a b).2.toNat = a.toNat + 256 := by
  have := a.isLt
  have := b.isLt
  simp only [subNotBorrow, BitVec.toNat_sub, flagBit_toNat, decide_eq_true_eq]
  split <;> omega

/-- The right shift's law (R170). -/
theorem shiftRightOut_law (a : Byte) : 2 * (shiftRightOut a).1.toNat + (shiftRightOut a).2.toNat = a.toNat := by
  simp only [shiftRightOut, BitVec.toNat_ushiftRight, Nat.shiftRight_eq_div_pow, flagBit_toNat, BitVec.getLsbD,
    Nat.testBit_zero, decide_eq_true_eq]
  split <;> omega

/-- The left shift's law (R172). -/
theorem shiftLeftOut_law (a : Byte) :
    (shiftLeftOut a).1.toNat + 256 * (shiftLeftOut a).2.toNat = 2 * a.toNat := by
  revert a; decide

/-- Everything the flag discipline does to registers (R161): VF ends as the flag, another x as the result. -/
theorem setResultFlag_getV (s : State) (x q : Reg) (rf : Byte × Byte) :
    (s.setResultFlag x rf).getV q = if q = vf then rf.2 else if q = x then rf.1 else s.getV q := by
  simp only [State.setResultFlag, State.setV_getV]

end Sys2Proof.Machine
end

