-- ==== Sys2Proof/Laws/PerInstr.lean ====
section
/-! SUPPORT. Facts about every instruction as syntax, one lemma per constructor. `EncodesRow`: the encoder's word
matches the instruction's own row of R93. `ListsWell`: the instruction's listing passes the check of R98. -/

namespace Sys2Proof.Laws

/-- The row of R93 with the instruction's number, and the word of the instruction matching it. -/
def EncodesRow.Statement (i : Instr) : Prop :=
  ∃ r, opcodeRows[i.rowNumber - 1]? = some r ∧ r.number = i.rowNumber ∧ r.Matches (encode i)

/-- The listing of the instruction is well formed. -/
def ListsWell.Statement (i : Instr) : Prop := i.wellFormed = true

theorem matches_F000 {op value : Word} (h : op.toNat / 4096 * 4096 = value.toNat) : op &&& 0xF000#16 = value :=
  BitVec.eq_of_toNat_eq (by rw [and_F000, h])

theorem matches_F00F {op value : Word} (h : op.toNat / 4096 * 4096 + op.toNat % 16 = value.toNat) :
    op &&& 0xF00F#16 = value :=
  BitVec.eq_of_toNat_eq (by rw [and_F00F, h])

theorem matches_F0FF {op value : Word} (h : op.toNat / 4096 * 4096 + op.toNat % 256 = value.toNat) :
    op &&& 0xF0FF#16 = value :=
  BitVec.eq_of_toNat_eq (by rw [and_F0FF, h])

theorem formatA_row {major : Nat} (h : major < 16) (nnn : Addr) :
    (formatA major nnn).toNat / 4096 * 4096 = major * 4096 := by
  rw [formatA_toNat h]
  omega

theorem formatXK_row {major : Nat} (h : major < 16) (x : Reg) (kk : Byte) :
    (formatXK major x kk).toNat / 4096 * 4096 = major * 4096 := by
  rw [formatXK_toNat h]
  omega

theorem nibbles_row {a b c d : Nat} (ha : a < 16) (hb : b < 16) (hc : c < 16) (hd : d < 16) :
    (nibbles a b c d).toNat / 4096 * 4096 + (nibbles a b c d).toNat % 16 = a * 4096 + d := by
  rw [nibbles_toNat ha hb hc hd]
  omega

theorem nibbles_row_byte {a b c d : Nat} (ha : a < 16) (hb : b < 16) (hc : c < 16) (hd : d < 16) :
    (nibbles a b c d).toNat / 4096 * 4096 + (nibbles a b c d).toNat % 256 = a * 4096 + c * 16 + d := by
  rw [nibbles_toNat ha hb hc hd]
  omega

theorem nibbles_row_major {a b c d : Nat} (ha : a < 16) (hb : b < 16) (hc : c < 16) (hd : d < 16) :
    (nibbles a b c d).toNat / 4096 * 4096 = a * 4096 := by
  rw [nibbles_toNat ha hb hc hd]
  omega

/-! ## EncodesRow -/

theorem EncodesRow.cls : EncodesRow.Statement .cls :=
  ⟨_, rfl, rfl, by decide⟩

theorem EncodesRow.ret : EncodesRow.Statement .ret :=
  ⟨_, rfl, rfl, by decide⟩

theorem EncodesRow.jp (nnn : Addr) : EncodesRow.Statement (.jp nnn) :=
  ⟨_, rfl, rfl, matches_F000 (formatA_row (by decide) nnn)⟩

theorem EncodesRow.call (nnn : Addr) : EncodesRow.Statement (.call nnn) :=
  ⟨_, rfl, rfl, matches_F000 (formatA_row (by decide) nnn)⟩

theorem EncodesRow.seImm (x : Reg) (kk : Byte) : EncodesRow.Statement (.seImm x kk) :=
  ⟨_, rfl, rfl, matches_F000 (formatXK_row (by decide) x kk)⟩

theorem EncodesRow.sneImm (x : Reg) (kk : Byte) : EncodesRow.Statement (.sneImm x kk) :=
  ⟨_, rfl, rfl, matches_F000 (formatXK_row (by decide) x kk)⟩

theorem EncodesRow.seReg (x y : Reg) : EncodesRow.Statement (.seReg x y) :=
  ⟨_, rfl, rfl, matches_F00F (nibbles_row (by decide) x.isLt y.isLt (by decide))⟩

theorem EncodesRow.ldImm (x : Reg) (kk : Byte) : EncodesRow.Statement (.ldImm x kk) :=
  ⟨_, rfl, rfl, matches_F000 (formatXK_row (by decide) x kk)⟩

theorem EncodesRow.addImm (x : Reg) (kk : Byte) : EncodesRow.Statement (.addImm x kk) :=
  ⟨_, rfl, rfl, matches_F000 (formatXK_row (by decide) x kk)⟩

theorem EncodesRow.ldReg (x y : Reg) : EncodesRow.Statement (.ldReg x y) :=
  ⟨_, rfl, rfl, matches_F00F (nibbles_row (by decide) x.isLt y.isLt (by decide))⟩

theorem EncodesRow.orReg (x y : Reg) : EncodesRow.Statement (.orReg x y) :=
  ⟨_, rfl, rfl, matches_F00F (nibbles_row (by decide) x.isLt y.isLt (by decide))⟩

theorem EncodesRow.andReg (x y : Reg) : EncodesRow.Statement (.andReg x y) :=
  ⟨_, rfl, rfl, matches_F00F (nibbles_row (by decide) x.isLt y.isLt (by decide))⟩

theorem EncodesRow.xorReg (x y : Reg) : EncodesRow.Statement (.xorReg x y) :=
  ⟨_, rfl, rfl, matches_F00F (nibbles_row (by decide) x.isLt y.isLt (by decide))⟩

theorem EncodesRow.addReg (x y : Reg) : EncodesRow.Statement (.addReg x y) :=
  ⟨_, rfl, rfl, matches_F00F (nibbles_row (by decide) x.isLt y.isLt (by decide))⟩

theorem EncodesRow.subReg (x y : Reg) : EncodesRow.Statement (.subReg x y) :=
  ⟨_, rfl, rfl, matches_F00F (nibbles_row (by decide) x.isLt y.isLt (by decide))⟩

theorem EncodesRow.shr (x y : Reg) : EncodesRow.Statement (.shr x y) :=
  ⟨_, rfl, rfl, matches_F00F (nibbles_row (by decide) x.isLt y.isLt (by decide))⟩

theorem EncodesRow.subnReg (x y : Reg) : EncodesRow.Statement (.subnReg x y) :=
  ⟨_, rfl, rfl, matches_F00F (nibbles_row (by decide) x.isLt y.isLt (by decide))⟩

theorem EncodesRow.shl (x y : Reg) : EncodesRow.Statement (.shl x y) :=
  ⟨_, rfl, rfl, matches_F00F (nibbles_row (by decide) x.isLt y.isLt (by decide))⟩

theorem EncodesRow.sneReg (x y : Reg) : EncodesRow.Statement (.sneReg x y) :=
  ⟨_, rfl, rfl, matches_F00F (nibbles_row (by decide) x.isLt y.isLt (by decide))⟩

theorem EncodesRow.ldI (nnn : Addr) : EncodesRow.Statement (.ldI nnn) :=
  ⟨_, rfl, rfl, matches_F000 (formatA_row (by decide) nnn)⟩

theorem EncodesRow.jpV0 (nnn : Addr) : EncodesRow.Statement (.jpV0 nnn) :=
  ⟨_, rfl, rfl, matches_F000 (formatA_row (by decide) nnn)⟩

theorem EncodesRow.rnd (x : Reg) (kk : Byte) : EncodesRow.Statement (.rnd x kk) :=
  ⟨_, rfl, rfl, matches_F000 (formatXK_row (by decide) x kk)⟩

theorem EncodesRow.drw (x y : Reg) (n : Fin 16) : EncodesRow.Statement (.drw x y n) :=
  ⟨_, rfl, rfl, matches_F000 (nibbles_row_major (by decide) x.isLt y.isLt n.isLt)⟩

theorem EncodesRow.skp (x : Reg) : EncodesRow.Statement (.skp x) :=
  ⟨_, rfl, rfl, matches_F0FF (nibbles_row_byte (by decide) x.isLt (by decide) (by decide))⟩

theorem EncodesRow.sknp (x : Reg) : EncodesRow.Statement (.sknp x) :=
  ⟨_, rfl, rfl, matches_F0FF (nibbles_row_byte (by decide) x.isLt (by decide) (by decide))⟩

theorem EncodesRow.ldVxDT (x : Reg) : EncodesRow.Statement (.ldVxDT x) :=
  ⟨_, rfl, rfl, matches_F0FF (nibbles_row_byte (by decide) x.isLt (by decide) (by decide))⟩

theorem EncodesRow.ldVxK (x : Reg) : EncodesRow.Statement (.ldVxK x) :=
  ⟨_, rfl, rfl, matches_F0FF (nibbles_row_byte (by decide) x.isLt (by decide) (by decide))⟩

theorem EncodesRow.ldDTVx (x : Reg) : EncodesRow.Statement (.ldDTVx x) :=
  ⟨_, rfl, rfl, matches_F0FF (nibbles_row_byte (by decide) x.isLt (by decide) (by decide))⟩

theorem EncodesRow.ldSTVx (x : Reg) : EncodesRow.Statement (.ldSTVx x) :=
  ⟨_, rfl, rfl, matches_F0FF (nibbles_row_byte (by decide) x.isLt (by decide) (by decide))⟩

theorem EncodesRow.addIVx (x : Reg) : EncodesRow.Statement (.addIVx x) :=
  ⟨_, rfl, rfl, matches_F0FF (nibbles_row_byte (by decide) x.isLt (by decide) (by decide))⟩

theorem EncodesRow.ldFVx (x : Reg) : EncodesRow.Statement (.ldFVx x) :=
  ⟨_, rfl, rfl, matches_F0FF (nibbles_row_byte (by decide) x.isLt (by decide) (by decide))⟩

theorem EncodesRow.ldBVx (x : Reg) : EncodesRow.Statement (.ldBVx x) :=
  ⟨_, rfl, rfl, matches_F0FF (nibbles_row_byte (by decide) x.isLt (by decide) (by decide))⟩

theorem EncodesRow.ldMemVx (x : Reg) : EncodesRow.Statement (.ldMemVx x) :=
  ⟨_, rfl, rfl, matches_F0FF (nibbles_row_byte (by decide) x.isLt (by decide) (by decide))⟩

theorem EncodesRow.ldVxMem (x : Reg) : EncodesRow.Statement (.ldVxMem x) :=
  ⟨_, rfl, rfl, matches_F0FF (nibbles_row_byte (by decide) x.isLt (by decide) (by decide))⟩

/-! ## ListsWell -/

theorem ListsWell.cls : ListsWell.Statement .cls := rfl

theorem ListsWell.ret : ListsWell.Statement .ret := rfl

theorem ListsWell.jp (nnn : Addr) : ListsWell.Statement (.jp nnn) := by
  simpa [ListsWell.Statement, Instr.wellFormed, Instr.listing, AsmLine.wellFormed, Mnemonic.shapes, Mnemonic.numLimit,
    Operand.kind, Operand.fits, jumpRegisterOk] using nnn.isLt

theorem ListsWell.call (nnn : Addr) : ListsWell.Statement (.call nnn) := by
  simpa [ListsWell.Statement, Instr.wellFormed, Instr.listing, AsmLine.wellFormed, Mnemonic.shapes, Mnemonic.numLimit,
    Operand.kind, Operand.fits, jumpRegisterOk] using nnn.isLt

theorem ListsWell.seImm (x : Reg) (kk : Byte) : ListsWell.Statement (.seImm x kk) := by
  simpa [ListsWell.Statement, Instr.wellFormed, Instr.listing, AsmLine.wellFormed, Mnemonic.shapes, Mnemonic.numLimit,
    Operand.kind, Operand.fits, jumpRegisterOk] using kk.isLt

theorem ListsWell.sneImm (x : Reg) (kk : Byte) : ListsWell.Statement (.sneImm x kk) := by
  simpa [ListsWell.Statement, Instr.wellFormed, Instr.listing, AsmLine.wellFormed, Mnemonic.shapes, Mnemonic.numLimit,
    Operand.kind, Operand.fits, jumpRegisterOk] using kk.isLt

theorem ListsWell.seReg (x y : Reg) : ListsWell.Statement (.seReg x y) := by
  simp [ListsWell.Statement, Instr.wellFormed, Instr.listing, AsmLine.wellFormed, Mnemonic.shapes, Mnemonic.numLimit,
    Operand.kind, Operand.fits, jumpRegisterOk]

theorem ListsWell.ldImm (x : Reg) (kk : Byte) : ListsWell.Statement (.ldImm x kk) := by
  simpa [ListsWell.Statement, Instr.wellFormed, Instr.listing, AsmLine.wellFormed, Mnemonic.shapes, Mnemonic.numLimit,
    Operand.kind, Operand.fits, jumpRegisterOk] using kk.isLt

theorem ListsWell.addImm (x : Reg) (kk : Byte) : ListsWell.Statement (.addImm x kk) := by
  simpa [ListsWell.Statement, Instr.wellFormed, Instr.listing, AsmLine.wellFormed, Mnemonic.shapes, Mnemonic.numLimit,
    Operand.kind, Operand.fits, jumpRegisterOk] using kk.isLt

theorem ListsWell.ldReg (x y : Reg) : ListsWell.Statement (.ldReg x y) := by
  simp [ListsWell.Statement, Instr.wellFormed, Instr.listing, AsmLine.wellFormed, Mnemonic.shapes, Mnemonic.numLimit,
    Operand.kind, Operand.fits, jumpRegisterOk]

theorem ListsWell.orReg (x y : Reg) : ListsWell.Statement (.orReg x y) := by
  simp [ListsWell.Statement, Instr.wellFormed, Instr.listing, AsmLine.wellFormed, Mnemonic.shapes, Mnemonic.numLimit,
    Operand.kind, Operand.fits, jumpRegisterOk]

theorem ListsWell.andReg (x y : Reg) : ListsWell.Statement (.andReg x y) := by
  simp [ListsWell.Statement, Instr.wellFormed, Instr.listing, AsmLine.wellFormed, Mnemonic.shapes, Mnemonic.numLimit,
    Operand.kind, Operand.fits, jumpRegisterOk]

theorem ListsWell.xorReg (x y : Reg) : ListsWell.Statement (.xorReg x y) := by
  simp [ListsWell.Statement, Instr.wellFormed, Instr.listing, AsmLine.wellFormed, Mnemonic.shapes, Mnemonic.numLimit,
    Operand.kind, Operand.fits, jumpRegisterOk]

theorem ListsWell.addReg (x y : Reg) : ListsWell.Statement (.addReg x y) := by
  simp [ListsWell.Statement, Instr.wellFormed, Instr.listing, AsmLine.wellFormed, Mnemonic.shapes, Mnemonic.numLimit,
    Operand.kind, Operand.fits, jumpRegisterOk]

theorem ListsWell.subReg (x y : Reg) : ListsWell.Statement (.subReg x y) := by
  simp [ListsWell.Statement, Instr.wellFormed, Instr.listing, AsmLine.wellFormed, Mnemonic.shapes, Mnemonic.numLimit,
    Operand.kind, Operand.fits, jumpRegisterOk]

theorem ListsWell.shr (x y : Reg) : ListsWell.Statement (.shr x y) := by
  simp [ListsWell.Statement, Instr.wellFormed, Instr.listing, AsmLine.wellFormed, Mnemonic.shapes, Mnemonic.numLimit,
    Operand.kind, Operand.fits, jumpRegisterOk]

theorem ListsWell.subnReg (x y : Reg) : ListsWell.Statement (.subnReg x y) := by
  simp [ListsWell.Statement, Instr.wellFormed, Instr.listing, AsmLine.wellFormed, Mnemonic.shapes, Mnemonic.numLimit,
    Operand.kind, Operand.fits, jumpRegisterOk]

theorem ListsWell.shl (x y : Reg) : ListsWell.Statement (.shl x y) := by
  simp [ListsWell.Statement, Instr.wellFormed, Instr.listing, AsmLine.wellFormed, Mnemonic.shapes, Mnemonic.numLimit,
    Operand.kind, Operand.fits, jumpRegisterOk]

theorem ListsWell.sneReg (x y : Reg) : ListsWell.Statement (.sneReg x y) := by
  simp [ListsWell.Statement, Instr.wellFormed, Instr.listing, AsmLine.wellFormed, Mnemonic.shapes, Mnemonic.numLimit,
    Operand.kind, Operand.fits, jumpRegisterOk]

theorem ListsWell.ldI (nnn : Addr) : ListsWell.Statement (.ldI nnn) := by
  simpa [ListsWell.Statement, Instr.wellFormed, Instr.listing, AsmLine.wellFormed, Mnemonic.shapes, Mnemonic.numLimit,
    Operand.kind, Operand.fits, jumpRegisterOk] using nnn.isLt

theorem ListsWell.jpV0 (nnn : Addr) : ListsWell.Statement (.jpV0 nnn) := by
  simpa [ListsWell.Statement, Instr.wellFormed, Instr.listing, AsmLine.wellFormed, Mnemonic.shapes, Mnemonic.numLimit,
    Operand.kind, Operand.fits, jumpRegisterOk] using nnn.isLt

theorem ListsWell.rnd (x : Reg) (kk : Byte) : ListsWell.Statement (.rnd x kk) := by
  simpa [ListsWell.Statement, Instr.wellFormed, Instr.listing, AsmLine.wellFormed, Mnemonic.shapes, Mnemonic.numLimit,
    Operand.kind, Operand.fits, jumpRegisterOk] using kk.isLt

theorem ListsWell.drw (x y : Reg) (n : Fin 16) : ListsWell.Statement (.drw x y n) := by
  simp [ListsWell.Statement, Instr.wellFormed, Instr.listing, AsmLine.wellFormed, Mnemonic.shapes, Mnemonic.numLimit,
    Operand.kind, Operand.fits, jumpRegisterOk]

theorem ListsWell.skp (x : Reg) : ListsWell.Statement (.skp x) := by
  simp [ListsWell.Statement, Instr.wellFormed, Instr.listing, AsmLine.wellFormed, Mnemonic.shapes, Mnemonic.numLimit,
    Operand.kind, Operand.fits, jumpRegisterOk]

theorem ListsWell.sknp (x : Reg) : ListsWell.Statement (.sknp x) := by
  simp [ListsWell.Statement, Instr.wellFormed, Instr.listing, AsmLine.wellFormed, Mnemonic.shapes, Mnemonic.numLimit,
    Operand.kind, Operand.fits, jumpRegisterOk]

theorem ListsWell.ldVxDT (x : Reg) : ListsWell.Statement (.ldVxDT x) := by
  simp [ListsWell.Statement, Instr.wellFormed, Instr.listing, AsmLine.wellFormed, Mnemonic.shapes, Mnemonic.numLimit,
    Operand.kind, Operand.fits, jumpRegisterOk]

theorem ListsWell.ldVxK (x : Reg) : ListsWell.Statement (.ldVxK x) := by
  simp [ListsWell.Statement, Instr.wellFormed, Instr.listing, AsmLine.wellFormed, Mnemonic.shapes, Mnemonic.numLimit,
    Operand.kind, Operand.fits, jumpRegisterOk]

theorem ListsWell.ldDTVx (x : Reg) : ListsWell.Statement (.ldDTVx x) := by
  simp [ListsWell.Statement, Instr.wellFormed, Instr.listing, AsmLine.wellFormed, Mnemonic.shapes, Mnemonic.numLimit,
    Operand.kind, Operand.fits, jumpRegisterOk]

theorem ListsWell.ldSTVx (x : Reg) : ListsWell.Statement (.ldSTVx x) := by
  simp [ListsWell.Statement, Instr.wellFormed, Instr.listing, AsmLine.wellFormed, Mnemonic.shapes, Mnemonic.numLimit,
    Operand.kind, Operand.fits, jumpRegisterOk]

theorem ListsWell.addIVx (x : Reg) : ListsWell.Statement (.addIVx x) := by
  simp [ListsWell.Statement, Instr.wellFormed, Instr.listing, AsmLine.wellFormed, Mnemonic.shapes, Mnemonic.numLimit,
    Operand.kind, Operand.fits, jumpRegisterOk]

theorem ListsWell.ldFVx (x : Reg) : ListsWell.Statement (.ldFVx x) := by
  simp [ListsWell.Statement, Instr.wellFormed, Instr.listing, AsmLine.wellFormed, Mnemonic.shapes, Mnemonic.numLimit,
    Operand.kind, Operand.fits, jumpRegisterOk]

theorem ListsWell.ldBVx (x : Reg) : ListsWell.Statement (.ldBVx x) := by
  simp [ListsWell.Statement, Instr.wellFormed, Instr.listing, AsmLine.wellFormed, Mnemonic.shapes, Mnemonic.numLimit,
    Operand.kind, Operand.fits, jumpRegisterOk]

theorem ListsWell.ldMemVx (x : Reg) : ListsWell.Statement (.ldMemVx x) := by
  simp [ListsWell.Statement, Instr.wellFormed, Instr.listing, AsmLine.wellFormed, Mnemonic.shapes, Mnemonic.numLimit,
    Operand.kind, Operand.fits, jumpRegisterOk]

theorem ListsWell.ldVxMem (x : Reg) : ListsWell.Statement (.ldVxMem x) := by
  simp [ListsWell.Statement, Instr.wellFormed, Instr.listing, AsmLine.wellFormed, Mnemonic.shapes, Mnemonic.numLimit,
    Operand.kind, Operand.fits, jumpRegisterOk]

end Sys2Proof.Laws
end

