-- ==== Sys2Proof/Laws/Transfer.lean ====
section
/-! SUPPORT. What the memory transfers do (R220 to R223): which bytes and which registers they write, and that they
write nothing else. -/

namespace Sys2Proof.Machine

/-! ## Storing registers (R222) -/

@[simp] theorem State.storeRegs_nil (s : State) : s.storeRegs [] = s := rfl

@[simp] theorem State.storeRegs_cons (s : State) (r : Reg) (rs : List Reg) :
    s.storeRegs (r :: rs) = (s.memWrite (s.ea r.val) (s.getV r)).storeRegs rs := rfl

/-- A store of registers changes memory only, and keeps its canonical form. -/
theorem State.storeRegs_frame (rs : List Reg) : ∀ s : State,
    ∃ m : Memory, (s.mem.wf → m.wf) ∧ s.storeRegs rs = { s with mem := m } := by
  induction rs with
  | nil => exact fun s => ⟨s.mem, id, rfl⟩
  | cons r rs ih =>
    intro s
    obtain ⟨m, hm, he⟩ := ih (s.memWrite (s.ea r.val) (s.getV r))
    exact ⟨m, fun h => hm (State.memWrite_wf h _ _), by rw [State.storeRegs_cons, he]; rfl⟩

/-- A byte none of the registers goes to reads as before. -/
theorem State.storeRegs_memRead_other (rs : List Reg) (a : Nat) : ∀ s : State, s.mem.wf →
    (∀ r ∈ rs, a % 4096 ≠ s.ea r.val) → (s.storeRegs rs).memRead a = s.memRead a := by
  induction rs with
  | nil => exact fun _ _ _ => rfl
  | cons r rs ih =>
    intro s h ha
    have hr : a % 4096 ≠ s.ea r.val % 4096 := by
      have := ha r (by simp)
      simp only [ea_eq] at this ⊢
      omega
    rw [State.storeRegs_cons, ih _ (State.memWrite_wf h _ _) fun q hq => ha q (by simp [hq]),
      State.memWrite_memRead h, if_neg hr]

/-- Register r is found at I + r afterwards (R222). -/
theorem State.storeRegs_memRead (rs : List Reg) {r : Reg} : ∀ s : State, s.mem.wf → r ∈ rs →
    (s.storeRegs rs).memRead (s.ea r.val) = s.getV r := by
  induction rs with
  | nil => exact fun _ _ h => absurd h (by simp)
  | cons q rs ih =>
    intro s h hr
    rw [State.storeRegs_cons]
    by_cases hin : r ∈ rs
    · exact ih (s.memWrite (s.ea q.val) (s.getV q)) (State.memWrite_wf h _ _) hin
    · have hq : r = q := by simpa [hin] using hr
      subst hq
      rw [State.storeRegs_memRead_other rs _ _ (State.memWrite_wf h _ _), State.memWrite_memRead h, if_pos rfl]
      intro q hq he
      have e : s.ea r.val % 4096 = s.ea r.val := by simp [ea_eq]
      rw [State.memWrite_ea, e] at he
      exact hin (Fin.ext ((ea_inj s (by omega) (by omega)).mp he) ▸ hq)

/-! ## Loading registers (R223) -/

@[simp] theorem State.loadRegs_nil (s : State) : s.loadRegs [] = s := rfl

@[simp] theorem State.loadRegs_cons (s : State) (r : Reg) (rs : List Reg) :
    s.loadRegs (r :: rs) = (s.setV r (s.memRead (s.ea r.val))).loadRegs rs := rfl

/-- A load of registers changes V only. -/
theorem State.loadRegs_frame (rs : List Reg) : ∀ s : State, ∃ v, s.loadRegs rs = { s with v := v } := by
  induction rs with
  | nil => exact fun s => ⟨s.v, rfl⟩
  | cons r rs ih =>
    intro s
    obtain ⟨v, he⟩ := ih (s.setV r (s.memRead (s.ea r.val)))
    exact ⟨v, by rw [State.loadRegs_cons, he]; rfl⟩

/-- Everything a load of registers does to registers (R223). -/
theorem State.loadRegs_getV (rs : List Reg) (q : Reg) : ∀ s : State,
    (s.loadRegs rs).getV q = if q ∈ rs then s.memRead (s.ea q.val) else s.getV q := by
  induction rs with
  | nil => exact fun _ => rfl
  | cons r rs ih =>
    intro s
    rw [State.loadRegs_cons, ih, State.setV_ea, State.setV_memRead, State.setV_getV]
    by_cases h1 : q ∈ rs
    · simp [h1]
    · by_cases h2 : q = r
      · subst h2; simp
      · simp [h1, h2]

/-! ## Storing the decimal digits (R221) -/

/-- The three digits make the byte, and each is a decimal digit (R221). -/
theorem bcdDigits_law (b : Byte) :
    100 * (bcdDigits b).1.toNat + 10 * (bcdDigits b).2.1.toNat + (bcdDigits b).2.2.toNat = b.toNat ∧
    (bcdDigits b).2.1.toNat < 10 ∧ (bcdDigits b).2.2.toNat < 10 := by
  have := b.isLt
  simp only [bcdDigits, BitVec.toNat_ofNat]
  omega

/-- The digits' store changes memory only, and keeps its canonical form. -/
theorem State.storeDigits_frame (s : State) (d : Byte × Byte × Byte) :
    ∃ m : Memory, (s.mem.wf → m.wf) ∧ s.storeDigits d = { s with mem := m } :=
  ⟨_, fun h => State.memWrite_wf (State.memWrite_wf (State.memWrite_wf h _ _) _ _) _ _, rfl⟩

/-- Everything the digits' store does to reads (R221, R66). -/
theorem State.storeDigits_memRead {s : State} (h : s.mem.wf) (d : Byte × Byte × Byte) (a : Nat) :
    (s.storeDigits d).memRead a =
      if a % 4096 = s.ea 2 then d.2.2 else if a % 4096 = s.ea 1 then d.2.1 else if a % 4096 = s.ea 0 then d.1
      else s.memRead a := by
  have e : ∀ k, s.ea k % 4096 = s.ea k := fun k => by simp [ea_eq]
  rw [State.storeDigits, State.memWrite_memRead (State.memWrite_wf (State.memWrite_wf h _ _) _ _),
    State.memWrite_memRead (State.memWrite_wf h _ _), State.memWrite_memRead h]
  simp only [e]

/-! ## The addresses stored to -/

/-- Fx55 stores to `EA(r)` for each r up to x, and nowhere else (R222). -/
@[simp] theorem mem_storedTo_ldMemVx {x : Reg} {s : State} {a : Nat} :
    a ∈ storedTo (.ldMemVx x) s ↔ ∃ r, r ≤ x ∧ s.ea r.val = a := by
  simp [storedTo]

/-- Fx33 stores to `EA(0)`, `EA(1)`, `EA(2)`, and nowhere else (R221). -/
@[simp] theorem mem_storedTo_ldBVx {x : Reg} {s : State} {a : Nat} :
    a ∈ storedTo (.ldBVx x) s ↔ a = s.ea 0 ∨ a = s.ea 1 ∨ a = s.ea 2 := by
  simp [storedTo]

/-- CALL writes the entry SP, and no other (R143). -/
@[simp] theorem mem_pushedAt_call {nnn : Addr} {s : State} {k : Nat} :
    k ∈ pushedAt (.call nnn) s ↔ k = s.sp.val := by
  simp [pushedAt]

/-- Clearing DF, as every step does first (R121), moves no address that is stored to. -/
@[simp] theorem storedTo_beginStep (i : Instr) (s : State) : storedTo i s.beginStep = storedTo i s := by
  cases i <;> rfl

/-- Clearing DF moves no entry that is pushed. -/
@[simp] theorem pushedAt_beginStep (i : Instr) (s : State) : pushedAt i s.beginStep = pushedAt i s := by
  cases i <;> rfl

end Sys2Proof.Machine
end

