-- ==== Sys2Proof/Tests/Slice0.lean ====
section
/-! SUPPORT. The model's own tests: well-formedness refusals, words of every family, one or two steps per instruction
with results from 95_test_vectors.md, and for every obligation with hypotheses a witness that meets them. -/

namespace Sys2Proof.Tests
open Sys2Proof.Machine

/-! ## Helpers -/

/-- The state of an outcome; the reset state for a stop. -/
def after : StepOutcome → State
  | .next t => t
  | _ => State.reset

/-- Whether an outcome is the fault. -/
def faults (o : StepOutcome) (k : Fault) : Bool :=
  match o with
  | .fault j => j = k
  | _ => false

/-- Reset, some registers set. -/
def withV (rs : List (Reg × Byte)) : State := rs.foldl (fun s r => s.setV r.1 r.2) State.reset

/-- Reset, some bytes written. -/
def withMem (s : State) (bs : List (Nat × Byte)) : State := bs.foldl (fun s b => s.memWrite b.1 b.2) s

/-- One step of the word placed at pc. -/
def run1 (s : State) (w : Nat) : State := after (step (s.withFetchWord 16 w))

/-! ## Well-formedness: each check refuses an ill-formed line (R98) -/

theorem test_refuses_shape : (AsmLine.instr .drw [.v 0, .v 1]).wellFormed = false := by decide
theorem test_refuses_register : (AsmLine.instr .skp [.v 16]).wellFormed = false := by decide
theorem test_refuses_address : (AsmLine.instr .jp [.num 0x1000]).wellFormed = false := by decide
theorem test_refuses_byte : (AsmLine.instr .ld [.v 0, .num 0x100]).wellFormed = false := by decide
theorem test_refuses_height : (AsmLine.instr .drw [.v 0, .v 1, .num 16]).wellFormed = false := by decide
theorem test_refuses_jump_register : (AsmLine.instr .jp [.v 1, .num 0x300]).wellFormed = false := by decide
theorem test_refuses_data_word : (AsmLine.dw 0x10000).wellFormed = false := by decide
theorem test_listing_text : (Instr.ldImm 0 0x07).listing.render = "LD V0,0x07" := by decide

/-! ## Words written out from R93's patterns, every constructor -/

theorem test_words_control : [0x00E0, 0x00EE, 0x1204, 0x2206, 0xB300].map (decodeTableWord 16) =
    [some .cls, some .ret, some (.jp 0x204), some (.call 0x206), some (.jpV0 0x300)] := by decide

theorem test_words_skip : [0x3100, 0x4206, 0x5340, 0x9340, 0xE59E, 0xE5A1].map (decodeTableWord 16) =
    [some (.seImm 1 0), some (.sneImm 2 6), some (.seReg 3 4), some (.sneReg 3 4), some (.skp 5), some (.sknp 5)] := by
  decide

theorem test_words_alu : [0x6007, 0x71FF, 0x8120, 0x8121, 0x8122, 0x8123, 0x8124, 0x8125].map (decodeTableWord 16) =
    [some (.ldImm 0 7), some (.addImm 1 0xFF), some (.ldReg 1 2), some (.orReg 1 2), some (.andReg 1 2),
      some (.xorReg 1 2), some (.addReg 1 2), some (.subReg 1 2)] := by decide

theorem test_words_shift : [0x8126, 0x8127, 0x812E, 0x8008, 0x800F].map (decodeTableWord 16) =
    [some (.shr 1 2), some (.subnReg 1 2), some (.shl 1 2), none, none] := by decide

theorem test_words_index_draw : [0xA300, 0xC30F, 0xD123, 0xF21E, 0xFA29].map (decodeTableWord 16) =
    [some (.ldI 0x300), some (.rnd 3 0x0F), some (.drw 1 2 3), some (.addIVx 2), some (.ldFVx 10)] := by decide

theorem test_words_misc : [0xF107, 0xF30A, 0xF015, 0xF418, 0xF133, 0xF255, 0xF265].map (decodeTableWord 16) =
    [some (.ldVxDT 1), some (.ldVxK 3), some (.ldDTVx 0), some (.ldSTVx 4), some (.ldBVx 1), some (.ldMemVx 2),
      some (.ldVxMem 2)] := by decide

theorem test_words_invalid : [0x0000, 0x00E1, 0x5341, 0x9341, 0x812D, 0xE09F, 0xF030].map (decodeTableWord 16) =
    [none, none, none, none, none, none, none] := by decide

/-! ## Steps (95_test_vectors.md, the row in each comment) -/

/-- 2.1: 6001 at 0xFFE. -/
theorem test_fetch_last_word :
    let t := run1 (State.reset.setPc 0xFFE) 0x6001
    t.getV 0 = 1 ∧ t.pc = 0x1000 := by decide
/-- 2.1: pc = 0xFFF. -/
theorem test_fetch_trap : faults (step (State.reset.setPc 0xFFF)) .memoryOutOfRange = true := by decide
/-- 2.1 and S1: 0x0000 traps and clears DF. -/
theorem test_invalid_trap : faults (step State.reset) .invalidOpcode = true ∧
    (State.reset.setDf true).stepOp.1.df = false := by decide

/-- 2.3: 1204, 1201. -/
theorem test_jp : (run1 State.reset 0x1204).pc = 0x204 ∧ (run1 State.reset 0x1201).pc = 0x201 := by decide
/-- S4: 2206. -/
theorem test_call :
    let t := run1 State.reset 0x2206
    t.pc = 0x206 ∧ t.sp = 1 ∧ t.stk[0] = 0x202 := by decide
/-- 2.3: 2300 with SP = 16. -/
theorem test_call_overflow :
    faults (step ({ State.reset with sp := 16 }.withFetchWord 16 0x2300)) .stackOverflow = true := by decide
/-- S4: RET after the CALL. -/
theorem test_ret :
    let t := run1 (run1 State.reset 0x2206) 0x00EE
    t.pc = 0x202 ∧ t.sp = 0 ∧ t.stk[0] = 0x202 := by decide
/-- 2.3: 00EE with SP = 0. -/
theorem test_ret_underflow : faults (step (State.reset.withFetchWord 16 0x00EE)) .stackUnderflow = true := by decide
/-- 2.3: B300, and BF01 that wraps. -/
theorem test_jpV0 : (run1 (withV [(0, 4)]) 0xB300).pc = 0x304 ∧ (run1 (withV [(0, 0xFF)]) 0xBF01).pc = 0 := by decide
/-- 2.3: 3100. -/
theorem test_seImm : (run1 State.reset 0x3100).pc = 0x204 ∧ (run1 (withV [(1, 9)]) 0x3100).pc = 0x202 := by decide
/-- 2.3: 4206, 4205. -/
theorem test_sneImm : (run1 (withV [(2, 5)]) 0x4206).pc = 0x204 ∧ (run1 (withV [(2, 5)]) 0x4205).pc = 0x202 := by
  decide
/-- 2.3: 5340. -/
theorem test_seReg : (run1 (withV [(3, 0x7F), (4, 0x7F)]) 0x5340).pc = 0x204 ∧
    (run1 (withV [(3, 0x7F), (4, 0x7E)]) 0x5340).pc = 0x202 := by decide
/-- 2.3: 9340. -/
theorem test_sneReg : (run1 (withV [(3, 1), (4, 2)]) 0x9340).pc = 0x204 ∧
    (run1 (withV [(3, 2), (4, 2)]) 0x9340).pc = 0x202 := by decide

/-- 2.4: 6FAB. -/
theorem test_ldImm : (run1 State.reset 0x6FAB).getV 15 = 0xAB := by decide
/-- 2.4: 7102 wraps and sets no flag. -/
theorem test_addImm :
    let t := run1 (withV [(1, 0xFF)]) 0x7102
    t.getV 1 = 1 ∧ t.getV 15 = 0 := by decide
/-- 2.4: 8120. -/
theorem test_ldReg : (run1 (withV [(2, 0xAB)]) 0x8120).getV 1 = 0xAB := by decide
/-- 2.4: 8011 leaves VF. -/
theorem test_orReg :
    let t := run1 (withV [(0, 0xF0), (1, 0x0F), (15, 0x55)]) 0x8011
    t.getV 0 = 0xFF ∧ t.getV 15 = 0x55 := by decide
/-- 2.4: 8012. -/
theorem test_andReg : (run1 (withV [(0, 0xF3), (1, 0x3C)]) 0x8012).getV 0 = 0x30 := by decide
/-- 2.4: 8013. -/
theorem test_xorReg : (run1 (withV [(0, 0xFF), (1, 0x0F)]) 0x8013).getV 0 = 0xF0 := by decide
/-- S2: 8014. -/
theorem test_addReg :
    let t := run1 (withV [(0, 0xFF), (1, 0x01)]) 0x8014
    t.getV 0 = 0 ∧ t.getV 15 = 1 ∧ t.pc = 0x202 := by decide
/-- 1.3: 8FF4. -/
theorem test_addReg_into_VF : (run1 (withV [(15, 0x80)]) 0x8FF4).getV 15 = 1 ∧
    (run1 (withV [(15, 0x7F)]) 0x8FF4).getV 15 = 0 := by decide
/-- 2.4: 8015. -/
theorem test_subReg :
    let t := run1 (withV [(0, 3), (1, 5)]) 0x8015
    t.getV 0 = 0xFE ∧ t.getV 15 = 0 := by decide
/-- 2.4: 8F15. -/
theorem test_subReg_into_VF : (run1 (withV [(15, 3), (1, 2)]) 0x8F15).getV 15 = 1 := by decide
/-- 2.4: 8016 does not read V1. -/
theorem test_shr :
    let t := run1 (withV [(0, 4), (1, 0xFF), (15, 1)]) 0x8016
    t.getV 0 = 2 ∧ t.getV 15 = 0 := by decide
/-- 2.4: 8017. -/
theorem test_subnReg :
    let t := run1 (withV [(0, 3), (1, 5)]) 0x8017
    t.getV 0 = 2 ∧ t.getV 15 = 1 := by decide
/-- 2.4: 800E. -/
theorem test_shl :
    let t := run1 (withV [(0, 0x81)]) 0x800E
    t.getV 0 = 2 ∧ t.getV 15 = 1 := by decide

/-- 2.5: A300. -/
theorem test_ldI : (run1 (State.reset.setI 0xFFFF) 0xA300).i = 0x300 := by decide
/-- 2.5: F01E at 0x0FFF and at 0xFFFF. -/
theorem test_addIVx : (run1 ((withV [(0, 1)]).setI 0x0FFF) 0xF01E).i = 0x1000 ∧
    (run1 ((withV [(0, 1)]).setI 0xFFFF) 0xF01E).i = 0 := by decide
/-- 2.5: F029 with V0 = 0x1A. -/
theorem test_ldFVx : (run1 (withV [(0, 0x1A)]) 0xF029).i = 0x32 := by decide
/-- 2.5: C30F with the draw 0xA7, by the meaning's own masking. -/
theorem test_rnd : (storeMasked 3 0x0F (0xA7, State.reset)).getV 3 = 0x07 := by decide

/-- S5, first draw; 2.6: 00E0 after it. -/
theorem test_cls :
    let t := run1 (run1 ((withMem State.reset [(0x300, 0xFF)]).setI 0x300) 0xD011) 0x00E0
    t.fb.pixel 3 0 = false ∧ t.df = true := by decide
/-- 2.6: D015, glyph A at (62, 30). -/
theorem test_drw_clips :
    let t := run1 ((withV [(0, 0x3E), (1, 0x1E)]).setI 0x32) 0xD015
    t.fb.pixel 62 30 = true ∧ t.fb.pixel 63 30 = true ∧ t.fb.pixel 62 31 = true ∧ t.fb.pixel 63 31 = false ∧
      t.getV 15 = 0 := by decide +kernel
/-- 2.6: DF01, the origin from the old VF. -/
theorem test_drw_reads_VF_first :
    let t := run1 ((withMem (withV [(15, 5)]) [(0x300, 0x80)]).setI 0x300) 0xDF01
    t.fb.pixel 5 0 = true ∧ t.fb.pixel 0 0 = false ∧ t.getV 15 = 0 := by decide

/-- 2.7: E09E with V0 = 0x15. -/
theorem test_skp : (run1 ((withV [(0, 0x15)]).setKey 5 true) 0xE09E).pc = 0x204 ∧
    (run1 (withV [(0, 5)]) 0xE09E).pc = 0x202 := by decide
/-- 2.7: E0A1. -/
theorem test_sknp : (run1 ((withV [(0, 5)]).setKey 5 true) 0xE0A1).pc = 0x202 ∧
    (run1 (withV [(0, 5)]) 0xE0A1).pc = 0x204 := by decide
/-- 2.7: F30A with keys 7 and 3. -/
theorem test_ldVxK :
    let t := run1 ((State.reset.setKey 7 true).setKey 3 true) 0xF30A
    t.getV 3 = 3 ∧ t.pc = 0x202 := by decide
/-- S6: F00A with no key. -/
theorem test_ldVxK_waits : (run1 State.reset 0xF00A).pc = 0x200 := by decide

/-- 2.8: F107. -/
theorem test_ldVxDT : (run1 (State.reset.setDt 2) 0xF107).getV 1 = 2 := by decide
/-- 2.8: F015. -/
theorem test_ldDTVx : (run1 (withV [(0, 3)]) 0xF015).dt = 3 := by decide
/-- 2.8: F418. -/
theorem test_ldSTVx :
    let t := run1 (withV [(4, 0x1E)]) 0xF418
    t.st = 0x1E ∧ t.soundActive = true := by decide
/-- 2.8: tick_timers. -/
theorem test_tickTimers :
    let t := ((State.reset.setDt 3).setSt 0).tickTimers
    t.dt = 2 ∧ t.st = 0 := by decide

/-- 2.9: F133 wraps from 0xFFF into the fontset. -/
theorem test_ldBVx :
    let t := run1 ((withV [(1, 123)]).setI 0xFFF) 0xF133
    t.memRead 0xFFF = 1 ∧ t.memRead 0 = 2 ∧ t.memRead 1 = 3 := by decide
/-- 2.9: F255. -/
theorem test_ldMemVx :
    let t := run1 ((withV [(0, 0x11), (1, 0x22), (2, 0x33), (3, 0x44)]).setI 0x400) 0xF255
    t.memRead 0x400 = 0x11 ∧ t.memRead 0x402 = 0x33 ∧ t.memRead 0x403 = 0 ∧ t.i = 0x400 := by decide
/-- 2.9: F165 at 0x0FFF. -/
theorem test_ldVxMem :
    let t := run1 ((withMem State.reset [(0xFFF, 0x12)]).setI 0xFFF) 0xF165
    t.getV 0 = 0x12 ∧ t.getV 1 = 0xF0 := by decide

/-- R62: the fontset's first, middle and last bytes. -/
theorem test_fontset : fontset.length = 80 ∧ State.reset.memRead 0x05 = 0x20 ∧ State.reset.memRead 0x26 = 0x40 ∧
    State.reset.memRead 0x32 = 0xF0 ∧ State.reset.memRead 0x4F = 0x80 ∧ State.reset.memRead 0x50 = 0 := by decide
/-- 2.10: load_rom(12 00), and 3585 bytes. -/
theorem test_loadRom :
    let t := (State.reset.loadRom [0x12, 0x00]).1
    t.memRead 0x200 = 0x12 ∧ t.memRead 0x201 = 0 ∧ t.pc = 0x200 := by decide

/-! ## Witnesses: the hypotheses of each statement are met together -/

/-- A state about to run the word. -/
def ready (w : Nat) : State := State.reset.withFetchWord 16 w

theorem witness_EncodeOfDecodeIsIdentity : decodeWord 0x8126#16 = .ok (.shr 1 2) := by decide

theorem witness_DecodingFollowsTheOpcodeMap : (∃ r ∈ opcodeRows, r.Matches 0xE5A1#16) ∧
    decodeWord 0xE5A1#16 = .ok (.sknp 5) := by decide

theorem witness_StepRunsTheDecodedInstruction : ∃ (s : State) (i : Instr), s.pc.toNat + 1 < 4096 ∧
    decodeWord (BitVec.ofNat 16 (256 * (s.memRead s.pc.toNat).toNat + (s.memRead (s.pc.toNat + 1)).toNat)) = .ok i :=
  ⟨(State.reset.setPc 0xFFE).withFetchWord 16 0x6001, .ldImm 0 1, by decide, by decide⟩

theorem witness_TrapLeavesAllButTheDrawFlag : ∃ (s t : State) (k : Fault), perform .step s = (t, .trapped k) :=
  ⟨State.reset.setPc 0xFFF, _, .memoryOutOfRange, rfl⟩

theorem reset_inv : State.reset.Inv := ⟨⟨nofun, List.Pairwise.nil⟩, by decide, by decide⟩

theorem ready_inv (op : Nat) (h : (ready op).mem.wf) (hpc : (ready op).pc = 0x200) (hs : (ready op).stk = State.reset.stk) :
    (ready op).Inv := ⟨h, by rw [hpc]; decide, by rw [hs]; exact reset_inv.stk⟩

theorem witness_StepKeepsTheInvariants : ∃ s t : State, s.Inv ∧ step s = .next t :=
  ⟨ready 0x2206, _, ready_inv _ (by decide) rfl rfl, rfl⟩

theorem witness_ReachableStatesHaveTheInvariants : ∃ s : State, Reachable s ∧ s.pc = 0x204 :=
  ⟨_, .operation .step (.operation (.loadRom [0x12, 0x04]) .construct), by decide⟩

theorem witness_EveryOperationKeepsTheInvariants : State.reset.Inv ∧ (ready 0x1204).Inv :=
  ⟨reset_inv, ready_inv _ (by decide) rfl rfl⟩

theorem witness_DrawFlagTellsThatTheStepDrew : ∃ (s t : State) (i : Instr), fetchInstr s = .ok i ∧ step s = .next t :=
  ⟨ready 0x00E0, _, .cls, by decide, rfl⟩

/-- A store of three bytes that wraps at the end of memory: the bytes around them are outside. -/
theorem witness_StepWritesOnlyWhatItsInstructionNames : ∃ (s t : State) (i : Instr), fetchInstr s = .ok i ∧
    step s = .next t ∧ (3 : Reg) ∉ writesRegs i ∧ s.mem.wf ∧ storedTo i s = [0xFFF, 0, 1] ∧
    0xFFE % 4096 ∉ storedTo i s ∧ 2 % 4096 ∉ storedTo i s :=
  ⟨(ready 0xF255).setI 0xFFF, _, .ldMemVx 2, by decide, rfl, by decide, by decide, by decide, by decide, by decide⟩

/-- A CALL pushes the entry SP: the next one is outside. -/
theorem witness_StepWritesOnly_pushes_one_entry : ∃ (s t : State) (i : Instr), fetchInstr s = .ok i ∧
    step s = .next t ∧ pushedAt i s = [0] ∧ (1 : Fin 16).val ∉ pushedAt i s :=
  ⟨ready 0x2206, _, .call 0x206, by decide, rfl, by decide, by decide⟩

theorem witness_StepsDoNotTickTheTimers : ∃ s t : State, step s = .next t ∧ t.dt ≠ s.dt ∧ t.st = s.st :=
  ⟨(withV [(0, 3)]).withFetchWord 16 0xF015, _, rfl, by decide, by decide⟩

theorem witness_StepsDoNotTickTheTimers_sound : ∃ s t : State, step s = .next t ∧ t.st ≠ s.st :=
  ⟨(withV [(0, 3)]).withFetchWord 16 0xF018, _, rfl, by decide⟩

theorem witness_PcStaysEvenButForJumps : ∃ (s t : State) (i : Instr), fetchInstr s = .ok i ∧ step s = .next t ∧
    s.pc.toNat % 2 = 0 ∧ i ≠ .ret ∧ ∀ nnn, i ≠ .jp nnn ∧ i ≠ .call nnn ∧ i ≠ .jpV0 nnn :=
  ⟨ready 0x3000, _, .seImm 0 0, by decide, rfl, by decide, nofun, fun _ => ⟨nofun, nofun, nofun⟩⟩

theorem witness_JumpToSelfChangesOnlyTheDrawFlag : ∃ (s : State) (nnn : Addr), fetchInstr s = .ok (.jp nnn) ∧
    nnn.toNat = s.pc.toNat := ⟨ready 0x1200, 0x200, by decide, by decide⟩

theorem witness_StoreIsSeenByTheNextFetch : ∃ (s t : State) (x : Reg), s.mem.wf ∧ 1 ≤ x.val ∧ s.pc.toNat + 3 < 4096 ∧
    s.i.toNat = s.pc.toNat + 2 ∧ exec (.ldMemVx x) s = .next t :=
  ⟨State.reset.setI 0x202, _, 1, reset_inv.mem, by decide, by decide, by decide, rfl⟩

theorem witness_ReturnPopsTheStack : ∃ s₀ s₁ s₂ : State, s₀.sp.val = 0 ∧ s₁.sp.val = 0 + 1 ∧ s₂.sp.val = 15 + 1 :=
  ⟨State.reset, { State.reset with sp := 1 }, { State.reset with sp := 16 }, rfl, rfl, rfl⟩

theorem witness_CallPushesTheReturnAddress : ∃ s₀ s₁ s₂ : State, s₀.sp.val = 16 ∧ s₁.sp.val = 0 ∧ s₂.sp.val = 15 :=
  ⟨{ State.reset with sp := 16 }, State.reset, { State.reset with sp := 15 }, rfl, rfl, rfl⟩

theorem witness_CallThenReturnComesBack : ∃ (s t u : State), exec (.call 0x206) s = .next t ∧ u.sp = t.sp ∧
    u.stk = t.stk := ⟨State.reset, _, _, rfl, rfl, rfl⟩

theorem witness_FlagsAreZeroOrOne : ∃ (x y : Reg) (n : Fin 16) (s t : State) (i : Instr),
    i ∈ [.addReg x y, .subReg x y, .shr x y, .subnReg x y, .shl x y, .drw x y n] ∧ exec i s = .next t :=
  ⟨0, 1, 1, State.reset, _, .drw 0 1 1, by decide, rfl⟩

theorem witness_AddSetsTheCarry : (14 : Reg) ≠ vf ∧ (13 : Reg) ≠ 14 ∧ (13 : Reg) ≠ vf := by decide

theorem witness_SubtractSetsNotBorrow : (0 : Reg) ≠ vf ∧ (14 : Reg) ≠ 0 ∧ (14 : Reg) ≠ vf := by decide

theorem witness_ReverseSubtractSetsNotBorrow : (14 : Reg) ≠ vf ∧ (0 : Reg) ≠ 14 ∧ (0 : Reg) ≠ vf := by decide

theorem witness_ShiftsInPlaceSetTheBitShiftedOut : (0 : Reg) ≠ vf ∧ (1 : Reg) ≠ 0 ∧ (1 : Reg) ≠ vf := by decide

/-- A sprite with one set bit at the last pixel of the plane, over a lit pixel. -/
theorem witness_DrawFlips_collides : ((withMem (withV [(0, 63), (1, 31)]) [(0, 0x80)]).setFb
    (Vector.replicate 2048 true)).SpriteCollides 0 1 1 := ⟨63, 31, by decide, by unfold State.SpriteCovers; decide,
      by decide +kernel⟩

/-- No rows, so no collision. -/
theorem witness_DrawFlips_does_not_collide : ¬ State.reset.SpriteCollides 0 1 0 := by
  rintro ⟨px, py, -, ⟨-, h, -⟩, -⟩
  exact absurd h.2 (by have := h.1; omega)

theorem witness_DrawOfNothingClearsVFOnly : (∀ r, r < 3 → (State.reset.setI 0x300).memRead (0x300 + r) = 0) ∧
    ∀ r, r < 0 → State.reset.memRead r = 0 := by decide

theorem witness_DrawTwiceRestoresTheScreen : ∃ (s t : State), (0 : Reg) ≠ vf ∧ (1 : Reg) ≠ vf ∧
    exec (.drw 0 1 5) s = .next t ∧ t.fb.pixel 0 0 = true := ⟨State.reset, _, by decide, by decide, rfl, by decide⟩

theorem witness_SkipsOnAKey : (15 : Fin 16).val = ((withV [(3, 0x1F)]).getV 3).toNat &&& 0x0F := by decide

theorem witness_KeyWaitTakesTheLowestKeyOrStays :
    (let s := (State.reset.setKey 15 true).setKey 3 true
     s.keys[(3 : Fin 16)] = true ∧ ∀ j : Fin 16, j < 3 → s.keys[j] = false) ∧
    (let s := State.reset.setKey 15 true
     s.keys[(15 : Fin 16)] = true ∧ ∀ j : Fin 16, j < 15 → s.keys[j] = false) ∧
    ∀ k : Fin 16, State.reset.keys[k] = false := by decide

theorem witness_StoreDigitsWritesThreeBytes : State.reset.mem.wf := reset_inv.mem

theorem witness_StoreRegistersWritesTheRange : (State.reset.memWrite 0xFFF 7).mem.wf ∧ (15 : Reg) ≤ 15 := by decide

theorem witness_LoadRegistersReadsTheRange : (0 : Reg) ≤ 0 ∧ (14 : Reg) < 15 := by decide

theorem witness_StoreThenLoadRestoresTheRegisters : ∃ (x : Reg) (s t u : State), s.mem.wf ∧
    exec (.ldMemVx x) s = .next t ∧ u.i = s.i ∧
    ∀ r : Reg, r ≤ x → u.memRead (s.i.toNat + r.val) = t.memRead (s.i.toNat + r.val) :=
  have h : ∃ t, exec (.ldMemVx 15) (State.reset.setI 0x400) = .next t ∧ t.i = 0x400 := ⟨_, rfl, rfl⟩
  h.elim fun t ht => ⟨15, State.reset.setI 0x400, t, t, reset_inv.mem, ht.1, ht.2, fun _ _ => rfl⟩

theorem witness_EqualReadsAreEqualMemories : ∃ m n : Memory, m.wf ∧ n.wf ∧ ∀ a, a < 4096 → m.read a = n.read a :=
  ⟨[(0x200, 0x12)], [(0x200, 0x12)], by decide, by decide, fun _ _ => rfl⟩

theorem witness_SetKeyWritesOneKey : (5 : Fin 16) ≠ 6 := by decide

theorem witness_LoadRomPlacesTheBytes : State.reset.mem.wf ∧ 3584 < (List.replicate 3585 (0 : Byte)).length ∧
    (List.replicate 3584 (0 : Byte)).length ≤ 3584 := ⟨reset_inv.mem, by rw [List.length_replicate]; decide, by rw [List.length_replicate]⟩

theorem witness_ALoadedProgramStartsAtItsFirstWord : ∃ t, decodeWord (BitVec.ofNat 16 (256 * 0x12 + 0x04)) =
    .ok (.jp 0x204) ∧ performAll [.reset, .loadRom [0x12, 0x04]] State.reset = (t, [.none, .ok]) :=
  ⟨_, by decide, rfl⟩

theorem witness_APlacedWordIsTheNextInstruction : State.reset.mem.wf ∧ decodeTableWord 16 0x6001 = some (.ldImm 0 1) :=
  ⟨reset_inv.mem, by decide⟩

end Sys2Proof.Tests
end

/-! PROOFS. The frame of a step: from `s` to the next state only V, pc, DF and the parts of `mayChange` differ. That a
step does not tick the timers (R128) is this frame read at DT and at ST. -/

namespace Sys2Proof.Machine

/-! ## The frame as one equation -/

/-- `s` with the listed parts taken from `t`. -/
def State.withParts (s : State) (ps : List Part) (t : State) : State where
  v := if .v ∈ ps then t.v else s.v
  i := if .i ∈ ps then t.i else s.i
  pc := if .pc ∈ ps then t.pc else s.pc
  sp := if .sp ∈ ps then t.sp else s.sp
  stk := if .stk ∈ ps then t.stk else s.stk
  dt := if .dt ∈ ps then t.dt else s.dt
  st := if .st ∈ ps then t.st else s.st
  fb := if .fb ∈ ps then t.fb else s.fb
  df := if .df ∈ ps then t.df else s.df
  keys := if .keys ∈ ps then t.keys else s.keys
  mem := if .mem ∈ ps then t.mem else s.mem
  draws := if .draws ∈ ps then t.draws else s.draws

/-- A part that is not listed stays. -/
theorem State.withParts_same (s t : State) {ps : List Part} {p : Part} (hp : p ∉ ps) :
    p.same s (s.withParts ps t) := by
  cases p <;> simp [Part.same, State.withParts, State.getV, State.memRead, hp]

/-- A state that is `s` but for the listed parts changes only them. -/
theorem onlyChanges_of_eq_withParts {s t : State} {ps : List Part} (h : t = s.withParts ps t) :
    OnlyChanges ps s t := by
  intro p hp
  rw [h]
  exact s.withParts_same t hp

/-! ## The frame of an instruction -/

/-- The parts that may differ after a step that ran `i`. -/
abbrev stepParts (i : Instr) : List Part := .v :: .pc :: .df :: mayChange i

/-- A skip changes pc only (R126). -/
theorem skipIf_eq_withParts {c : Bool} {s t : State} (h : skipIf c s = .next t) :
    t = s.withParts [.v, .pc, .df] t := by
  rw [skipIf_eq] at h
  cases h
  rfl

/-- A RET that completes has popped its target (R141). -/
theorem execRet_eq_next {s t : State} (h : execRet s = .next t) :
    ∃ target popped, s.pop = some (target, popped) ∧ t = popped.setPc target := by
  unfold execRet at h
  split at h
  · cases h
  · next hpop =>
    cases h
    exact ⟨_, _, hpop, rfl⟩

/-- A CALL that completes has pushed its return address (R143). -/
theorem execCall_eq_next {nnn : Addr} {s t : State} (h : execCall nnn s = .next t) :
    ∃ pushed, s.push (s.pc + 2) = some pushed ∧ t = pushed.setPc (zext nnn) := by
  unfold execCall at h
  split at h
  · cases h
  · next hpush =>
    cases h
    exact ⟨_, hpush, rfl⟩

/-- EVERYTHING A COMPLETED INSTRUCTION MAY CHANGE. The arms with a branch, a loop or a trap go by the lemma about the
operation they share; every other arm is the driver's advance of a state whose parts stand in the definition. -/
theorem exec_eq_withParts {i : Instr} {s t : State} (h : exec i s = .next t) :
    t = s.withParts (stepParts i) t := by
  cases i with
  | ret =>
    obtain ⟨_, _, hpop, rfl⟩ := execRet_eq_next h
    obtain ⟨_, _, rfl⟩ := State.pop_eq_some.mp hpop
    rfl
  | call nnn =>
    obtain ⟨_, hpush, rfl⟩ := execCall_eq_next h
    obtain ⟨_, rfl⟩ := State.push_eq_some.mp hpush
    rfl
  | ldVxK x =>
    simp only [exec, execLdVxK] at h
    split at h
    · cases h; rfl
    · cases h; rfl
  | ldMemVx x =>
    obtain ⟨m, -, hm⟩ := State.storeRegs_frame (regsUpTo x) s
    simp only [exec, execLdMemVx, hm] at h
    cases h
    rfl
  | ldVxMem x =>
    obtain ⟨v, hv⟩ := State.loadRegs_frame (regsUpTo x) s
    simp only [exec, execLdVxMem, hv] at h
    cases h
    rfl
  | seImm | sneImm | seReg | sneReg | skp | sknp => exact skipIf_eq_withParts h
  | _ => cases h; rfl

/-- The frame of an instruction. -/
theorem exec_onlyChanges {i : Instr} {s t : State} (h : exec i s = .next t) : OnlyChanges (stepParts i) s t :=
  onlyChanges_of_eq_withParts (exec_eq_withParts h)

/-- Clearing DF, as every step does first (R121), is seen at no other part. -/
theorem same_of_same_setDf {p : Part} {s t : State} {b : Bool} (hp : p ≠ .df) (h : p.same (s.setDf b) t) :
    p.same s t := by
  cases p with
  | df => exact absurd rfl hp
  | _ => exact h

/-- The frame of a step. -/
theorem step_onlyChanges {i : Instr} {s t : State} (hi : fetchInstr s = .ok i) (h : step s = .next t) :
    OnlyChanges (stepParts i) s t := by
  rw [step_of_ok hi] at h
  intro p hp
  have hdf : p ≠ .df := fun he => hp (by simp [he])
  exact same_of_same_setDf hdf (exec_onlyChanges h p hp)

/-- A step that completes ran an instruction. -/
theorem fetchInstr_of_step_eq_next {s t : State} (h : step s = .next t) : ∃ i, fetchInstr s = .ok i := by
  rcases step_cases s with ⟨i, hi, -⟩ | ⟨k, -, hs⟩
  · exact ⟨i, hi⟩
  · rw [hs] at h
    cases h

/-! ## The timers (R128) -/

/-- Fx15 is the one instruction that may change DT. -/
theorem dt_mem_mayChange {i : Instr} (h : .dt ∈ mayChange i) : ∃ x, i = .ldDTVx x := by
  cases i with
  | ldDTVx x => exact ⟨x, rfl⟩
  | _ => simp [mayChange] at h

/-- Fx18 is the one instruction that may change ST. -/
theorem st_mem_mayChange {i : Instr} (h : .st ∈ mayChange i) : ∃ x, i = .ldSTVx x := by
  cases i with
  | ldSTVx x => exact ⟨x, rfl⟩
  | _ => simp [mayChange] at h

/-- Settles O16: a timer that differs is one of the parts of the step's frame, and its one writer put it there. -/
theorem stepsDoNotTickTheTimers : Obligations.StepsDoNotTickTheTimers := by
  unfold Obligations.StepsDoNotTickTheTimers
  intro s t h
  obtain ⟨i, hi⟩ := fetchInstr_of_step_eq_next h
  have frame := step_onlyChanges hi h
  constructor
  · intro hdt
    have hmem : .dt ∈ stepParts i := by_contra fun hout => hdt (frame .dt hout)
    obtain ⟨x, rfl⟩ := dt_mem_mayChange (by simpa using hmem)
    exact ⟨x, hi⟩
  · intro hst
    have hmem : .st ∈ stepParts i := by_contra fun hout => hst (frame .st hout)
    obtain ⟨x, rfl⟩ := st_mem_mayChange (by simpa using hmem)
    exact ⟨x, hi⟩

end Sys2Proof.Machine

/-! PROOFS. The control transfers that set pc to an absolute target: JP (R142), CALL (R143), JP V0 (R144). Each is a word
of format A, and each says where it goes and that nothing else changes. -/

namespace Sys2Proof.Machine

/-! ## Their words decode -/

theorem decodeWord_formatA_jp (nnn : Addr) : decodeWord (formatA 0x1 nnn) = .ok (.jp nnn) := by
  simp [decodeWord]

theorem decodeWord_formatA_call (nnn : Addr) : decodeWord (formatA 0x2 nnn) = .ok (.call nnn) := by
  simp [decodeWord]

theorem decodeWord_formatA_jpV0 (nnn : Addr) : decodeWord (formatA 0xB nnn) = .ok (.jpV0 nnn) := by
  simp [decodeWord]

/-! ## Jumps -/

theorem exec_jp (nnn : Addr) (s : State) : exec (.jp nnn) s = .next (s.setPc (zext nnn)) := rfl

theorem exec_jpV0 (nnn : Addr) (s : State) :
    exec (.jpV0 nnn) s = .next (s.setPc (offsetTarget nnn (s.getV 0))) := rfl

/-- The frame of a jump. -/
theorem setPc_onlyChanges (s : State) (w : Word) : OnlyChanges [.pc] s (s.setPc w) :=
  onlyChanges_of_eq_withParts rfl

/-- Settles O21: a JP writes its target to pc, and that is the whole of its frame. -/
theorem jumpSetsPc : Obligations.JumpSetsPc := by
  unfold Obligations.JumpSetsPc
  intro nnn
  refine ⟨decodeWord_formatA_jp nnn, fun s => ?_⟩
  exact ⟨_, exec_jp nnn s, zext_toNat nnn, setPc_onlyChanges s _⟩

/-- Settles O23: masking by 0xFFF is the reduction modulo 4096 of the model's target. -/
theorem jumpWithOffsetSetsPc : Obligations.JumpWithOffsetSetsPc := by
  unfold Obligations.JumpWithOffsetSetsPc
  intro nnn
  refine ⟨decodeWord_formatA_jpV0 nnn, fun s => ?_⟩
  have mask (n : Nat) : n &&& 0xFFF = n % 4096 := Nat.and_two_pow_sub_one_eq_mod n 12
  have target : (offsetTarget nnn (s.getV 0)).toNat = (nnn.toNat + (s.getV 0).toNat) &&& 0xFFF := by
    rw [offsetTarget_toNat, mask]
  exact ⟨_, exec_jpV0 nnn s, target, setPc_onlyChanges s _⟩

/-! ## Calls -/

/-- The state after a CALL at stack depth SP < 16 (R143). -/
def State.called (s : State) (nnn : Addr) (h : s.sp.val < 16) : State :=
  { s with
    stk := s.stk.set s.sp.val (s.pc + 2) h
    sp := ⟨s.sp.val + 1, by omega⟩
    pc := zext nnn }

/-- A CALL with room on the stack completes (R143). -/
theorem exec_call_of_lt (nnn : Addr) {s : State} (h : s.sp.val < 16) :
    exec (.call nnn) s = .next (s.called nnn h) := by
  have hpush := (State.push_eq_some (s := s) (w := s.pc + 2)).mpr ⟨h, rfl⟩
  simp only [exec, execCall, hpush]
  rfl

/-- A CALL on the full stack traps (R143, R232). -/
theorem exec_call_of_full (nnn : Addr) {s : State} (h : s.sp.val = 16) :
    exec (.call nnn) s = .fault .stackOverflow := by
  have hpush := (State.push_eq_none (w := s.pc + 2)).mpr h
  simp only [exec, execCall, hpush]
  rfl

/-- The frame of a CALL. -/
theorem called_onlyChanges (s : State) (nnn : Addr) (h : s.sp.val < 16) :
    OnlyChanges [.pc, .sp, .stk] s (s.called nnn h) :=
  onlyChanges_of_eq_withParts rfl

/-- The entry a CALL pushes is the address of the next instruction (R143). -/
theorem called_stk_top (s : State) (nnn : Addr) (h : s.sp.val < 16) :
    (s.called nnn h).stk[s.sp.val] = s.pc + 2 :=
  Vector.getElem_set_self h

/-- A CALL keeps every stack entry but the one it pushes. -/
theorem called_stk_other (s : State) (nnn : Addr) (h : s.sp.val < 16) {k : Fin 16} (hk : k.val ≠ s.sp.val) :
    (s.called nnn h).stk[k] = s.stk[k] :=
  Vector.getElem_set_ne h k.isLt hk.symm

/-- Settles O22, by whether the stack is full: the trap, or the push of pc + 2 and the jump. -/
theorem callPushesTheReturnAddress : Obligations.CallPushesTheReturnAddress := by
  unfold Obligations.CallPushesTheReturnAddress
  intro nnn
  refine ⟨decodeWord_formatA_call nnn, fun s => ⟨exec_call_of_full nnn, ?_⟩⟩
  rintro _ h rfl
  exact ⟨s.called nnn h, exec_call_of_lt nnn h, called_stk_top s nnn h, rfl, zext_toNat nnn,
    fun k => called_stk_other s nnn h, called_onlyChanges s nnn h⟩

end Sys2Proof.Machine

/-! PROOFS. Arithmetic, bitwise and shift instructions (42_alu.md): where their words decode, what a written result and a
written flag leave in the registers (R161), and the values read off the arithmetic laws. -/

namespace Sys2Proof.Machine

/-! ## Their words decode -/

theorem decodeWord_formatXK_addImm (x : Reg) (kk : Byte) : decodeWord (formatXK 0x7 x kk) = .ok (.addImm x kk) := by
  simp [decodeWord]

/-- The word 8xyn as the statements write it: its last nibble stands in the constant. -/
theorem nibbles_alu (x y : Reg) (n : Nat) :
    nibbles 0x8 x y n = BitVec.ofNat 16 (0x8000 + n + x.val * 256 + y.val * 16) := by
  simp only [nibbles]
  congr 1
  omega

/-- 8xyn is decoded by its last nibble (R94). -/
theorem decodeWord_alu (x y : Reg) (n : Fin 16) :
    decodeWord (BitVec.ofNat 16 (0x8000 + n.val + x.val * 256 + y.val * 16)) = decodeAlu x y n := by
  rw [← nibbles_alu]
  simp [decodeWord]

/-! ## A result without a flag -/

/-- The state after an instruction whose one effect is `V[x] <- b`. -/
def State.withResult (s : State) (x : Reg) (b : Byte) : State := (s.setV x b).setPc (s.pc + 2)

@[simp] theorem withResult_getV_same (s : State) (x : Reg) (b : Byte) : (s.withResult x b).getV x = b :=
  s.setV_getV_same x b

/-- The frame of a result without a flag: the other registers, VF among them, and all but V and pc stay. -/
theorem withResult_frame (s : State) (x : Reg) (b : Byte) :
    (∀ r, r ≠ x → (s.withResult x b).getV r = s.getV r) ∧ (s.withResult x b).pc = s.pc + 2 ∧
      OnlyChanges [.v, .pc] s (s.withResult x b) :=
  ⟨fun _ hr => s.setV_getV_ne b hr, rfl, onlyChanges_of_eq_withParts rfl⟩

theorem exec_addImm (x : Reg) (kk : Byte) (s : State) :
    exec (.addImm x kk) s = .next (s.withResult x (s.getV x + kk)) := rfl

theorem exec_ldReg (x y : Reg) (s : State) : exec (.ldReg x y) s = .next (s.withResult x (s.getV y)) := rfl

theorem exec_orReg (x y : Reg) (s : State) :
    exec (.orReg x y) s = .next (s.withResult x (s.getV x ||| s.getV y)) := rfl

theorem exec_andReg (x y : Reg) (s : State) :
    exec (.andReg x y) s = .next (s.withResult x (s.getV x &&& s.getV y)) := rfl

theorem exec_xorReg (x y : Reg) (s : State) :
    exec (.xorReg x y) s = .next (s.withResult x (s.getV x ^^^ s.getV y)) := rfl

/-- Settles O28: a result without a flag, at x = 15 as at any other x. -/
theorem addImmediateSetsNoFlag : Obligations.AddImmediateSetsNoFlag := by
  unfold Obligations.AddImmediateSetsNoFlag
  intro x kk
  refine ⟨decodeWord_formatXK_addImm x kk, fun s => ?_⟩
  have sum : ((s.withResult x (s.getV x + kk)).getV x).toNat = ((s.getV x).toNat + kk.toNat) % 256 := by
    rw [withResult_getV_same, BitVec.toNat_add]
  exact ⟨_, exec_addImm x kk s, sum, withResult_frame s x _⟩

/-- Settles O29: the result is the register read. -/
theorem moveCopiesTheRegister : Obligations.MoveCopiesTheRegister := by
  unfold Obligations.MoveCopiesTheRegister
  intro x y
  refine ⟨decodeWord_alu x y 0x0, fun s => ?_⟩
  exact ⟨_, exec_ldReg x y s, withResult_getV_same s x _, withResult_frame s x _⟩

/-- Settles O30: three results without a flag, each the word operation read at one bit. -/
theorem bitwiseOperationsSetNoFlag : Obligations.BitwiseOperationsSetNoFlag := by
  unfold Obligations.BitwiseOperationsSetNoFlag
  intro x y
  refine ⟨decodeWord_alu x y 0x1, decodeWord_alu x y 0x2, decodeWord_alu x y 0x3, fun s => ?_⟩
  refine ⟨_, _, _, exec_orReg x y s, exec_andReg x y s, exec_xorReg x y s, fun k _ => ?_, ?_⟩
  · simp only [withResult_getV_same, BitVec.getLsbD_or, BitVec.getLsbD_and, BitVec.getLsbD_xor, and_self]
  · simp only [List.forall_mem_cons, List.not_mem_nil, false_implies, implies_true, and_true]
    exact ⟨withResult_frame s x _, withResult_frame s x _, withResult_frame s x _⟩

/-! ## A result and its flag (R161) -/

/-- The state after an instruction whose effect is `V[x] <- result`, then `VF <- flag`. -/
def State.withResultFlag (s : State) (x : Reg) (rf : Byte × Byte) : State :=
  (s.setResultFlag x rf).setPc (s.pc + 2)

/-- VF ends as the flag, also when x = 15 (R161). -/
@[simp] theorem withResultFlag_getV_vf (s : State) (x : Reg) (rf : Byte × Byte) :
    (s.withResultFlag x rf).getV vf = rf.2 := by
  simp [State.withResultFlag, setResultFlag_getV]

/-- Another x ends as the result (R161). -/
theorem withResultFlag_getV_same (s : State) {x : Reg} (rf : Byte × Byte) (hx : x ≠ vf) :
    (s.withResultFlag x rf).getV x = rf.1 := by
  simp [State.withResultFlag, setResultFlag_getV, hx]

/-- The frame of a result and its flag: the registers but x and VF, and all but V and pc, stay. -/
theorem withResultFlag_frame (s : State) (x : Reg) (rf : Byte × Byte) :
    (∀ r, r ≠ x → r ≠ vf → (s.withResultFlag x rf).getV r = s.getV r) ∧ (s.withResultFlag x rf).pc = s.pc + 2 ∧
      OnlyChanges [.v, .pc] s (s.withResultFlag x rf) := by
  refine ⟨fun r hx hvf => ?_, rfl, onlyChanges_of_eq_withParts rfl⟩
  simp [State.withResultFlag, setResultFlag_getV, hx, hvf]

theorem exec_addReg (x y : Reg) (s : State) :
    exec (.addReg x y) s = .next (s.withResultFlag x (addCarry (s.getV x) (s.getV y))) := rfl

theorem exec_subReg (x y : Reg) (s : State) :
    exec (.subReg x y) s = .next (s.withResultFlag x (subNotBorrow (s.getV x) (s.getV y))) := rfl

theorem exec_subnReg (x y : Reg) (s : State) :
    exec (.subnReg x y) s = .next (s.withResultFlag x (subNotBorrow (s.getV y) (s.getV x))) := rfl

theorem exec_shr (x y : Reg) (s : State) :
    exec (.shr x y) s = .next (s.withResultFlag x (shiftRightOut (s.getV x))) := rfl

theorem exec_shl (x y : Reg) (s : State) :
    exec (.shl x y) s = .next (s.withResultFlag x (shiftLeftOut (s.getV x))) := rfl

/-! ## Addition (R168) -/

/-- The law and the ranges of its bytes fix the carry. -/
theorem addCarry_carry (a b : Byte) :
    (addCarry a b).2.toNat = if a.toNat + b.toNat > 0xFF then 1 else 0 := by
  have law := addCarry_law a b
  have := (addCarry a b).1.isLt
  split <;> omega

theorem addCarry_sum (a b : Byte) : (addCarry a b).1.toNat = (a.toNat + b.toNat) % 256 :=
  BitVec.toNat_add a b

/-- Settles O31: the carry into VF, and for another x the sum and the carry law. -/
theorem addSetsTheCarry : Obligations.AddSetsTheCarry := by
  unfold Obligations.AddSetsTheCarry
  intro x y
  refine ⟨decodeWord_alu x y 0x4, fun s => ?_⟩
  refine ⟨_, exec_addReg x y s, ?_, fun hx => ?_, withResultFlag_frame s x _⟩
  · rw [withResultFlag_getV_vf, addCarry_carry]
  · rw [withResultFlag_getV_same s _ hx, withResultFlag_getV_vf]
    exact ⟨addCarry_sum _ _, addCarry_law _ _⟩

/-! ## Subtraction (R169, R171) -/

/-- The law and the ranges of its bytes fix NOT borrow. -/
theorem subNotBorrow_notBorrow (a b : Byte) :
    (subNotBorrow a b).2.toNat = if a.toNat ≥ b.toNat then 1 else 0 := by
  have law := subNotBorrow_law a b
  have := (subNotBorrow a b).1.isLt
  split <;> omega

/-- The borrow law over the integers: each borrow is worth 256. -/
theorem subNotBorrow_int_law (a b : Byte) :
    (a.toNat : Int) - b.toNat = (subNotBorrow a b).1.toNat - 256 * (1 - (subNotBorrow a b).2.toNat) := by
  have law := subNotBorrow_law a b
  omega

theorem subNotBorrow_difference (a b : Byte) :
    ((subNotBorrow a b).1.toNat : Int) = ((a.toNat : Int) - b.toNat) % 256 := by
  have law := subNotBorrow_int_law a b
  have := (subNotBorrow a b).1.isLt
  omega

/-- Settles O32: NOT borrow into VF, and for another x the difference and the borrow law. -/
theorem subtractSetsNotBorrow : Obligations.SubtractSetsNotBorrow := by
  unfold Obligations.SubtractSetsNotBorrow
  intro x y
  refine ⟨decodeWord_alu x y 0x5, fun s => ?_⟩
  refine ⟨_, exec_subReg x y s, ?_, fun hx => ?_, withResultFlag_frame s x _⟩
  · rw [withResultFlag_getV_vf, subNotBorrow_notBorrow]
  · rw [withResultFlag_getV_same s _ hx, withResultFlag_getV_vf]
    exact ⟨subNotBorrow_difference _ _, subNotBorrow_int_law _ _⟩

/-- Settles O33: SUB's facts with the operands exchanged, the destination still V[x]. -/
theorem reverseSubtractSetsNotBorrow : Obligations.ReverseSubtractSetsNotBorrow := by
  unfold Obligations.ReverseSubtractSetsNotBorrow
  intro x y
  refine ⟨decodeWord_alu x y 0x7, fun s => ?_⟩
  refine ⟨_, exec_subnReg x y s, ?_, fun hx => ?_, withResultFlag_frame s x _⟩
  · rw [withResultFlag_getV_vf, subNotBorrow_notBorrow]
  · rw [withResultFlag_getV_same s _ hx]
    exact subNotBorrow_difference _ _

/-! ## Shifts (R170, R172) -/

/-- A flag is 0 or 1 (R161). -/
theorem flagBit_le_one (c : Bool) : (flagBit c).toNat ≤ 1 := by
  rw [flagBit_toNat]
  split <;> omega

/-- The right shift is the division by 2: quotient and remainder, since the bit shifted out is below 2. -/
theorem shiftRightOut_div_mod (a : Byte) :
    (shiftRightOut a).1.toNat = a.toNat / 2 ∧ (shiftRightOut a).2.toNat = a.toNat % 2 := by
  have law := shiftRightOut_law a
  have bit : (shiftRightOut a).2.toNat ≤ 1 := flagBit_le_one _
  omega

/-- The left shift doubles: the byte of the double, and above it the bit shifted out. -/
theorem shiftLeftOut_mod_div (a : Byte) :
    (shiftLeftOut a).1.toNat = 2 * a.toNat % 256 ∧ (shiftLeftOut a).2.toNat = a.toNat / 128 := by
  have law := shiftLeftOut_law a
  have := (shiftLeftOut a).1.isLt
  omega

/-- Settles O34: both shifts read V[x] alone, so y has no part in the states they end in. -/
theorem shiftsInPlaceSetTheBitShiftedOut : Obligations.ShiftsInPlaceSetTheBitShiftedOut := by
  unfold Obligations.ShiftsInPlaceSetTheBitShiftedOut
  intro x y
  refine ⟨decodeWord_alu x y 0x6, decodeWord_alu x y 0xE, fun s => ?_⟩
  obtain ⟨half, bit0⟩ := shiftRightOut_div_mod (s.getV x)
  obtain ⟨double, bit7⟩ := shiftLeftOut_mod_div (s.getV x)
  refine ⟨_, _, exec_shr x y s, exec_shl x y s, ?_, ?_, fun hx => ?_, ?_⟩
  · rw [withResultFlag_getV_vf, bit0]
  · rw [withResultFlag_getV_vf, bit7]
  · rw [withResultFlag_getV_same s _ hx, withResultFlag_getV_same s _ hx]
    exact ⟨half, double⟩
  · simp only [List.forall_mem_cons, List.not_mem_nil, false_implies, implies_true, and_true]
    exact ⟨withResultFlag_frame s x _, withResultFlag_frame s x _⟩

end Sys2Proof.Machine

/-! PROOFS. The instructions that write the index register (43_index_random.md): LD I (R180), ADD I (R181), LD F (R182).
Each has one effect beside the driver's advance, a new value of I. -/

namespace Sys2Proof.Machine

/-! ## Their words decode -/

theorem decodeWord_formatA_ldI (nnn : Addr) : decodeWord (formatA 0xA nnn) = .ok (.ldI nnn) := by
  simp [decodeWord]

/-- The word Fxkk as the statements write it: its last byte stands in the constant. -/
theorem formatXK_misc (x : Reg) (kk : Byte) :
    formatXK 0xF x kk = BitVec.ofNat 16 (0xF000 + kk.toNat + x.val * 256) := by
  simp only [formatXK]
  congr 1
  omega

/-- Fxkk is decoded by its last byte (R94). -/
theorem decodeWord_misc (x : Reg) (kk : Byte) :
    decodeWord (BitVec.ofNat 16 (0xF000 + kk.toNat + x.val * 256)) = decodeMisc x kk.toNat := by
  rw [← formatXK_misc]
  simp [decodeWord]

/-! ## A new value of I -/

/-- The state after an instruction whose one effect is `I <- w`. -/
def State.withIndex (s : State) (w : Word) : State := (s.setI w).setPc (s.pc + 2)

/-- The frame of a new value of I: the registers, VF among them, and all but I and pc stay. -/
theorem withIndex_frame (s : State) (w : Word) :
    (s.withIndex w).pc = s.pc + 2 ∧ OnlyChanges [.i, .pc] s (s.withIndex w) :=
  ⟨rfl, onlyChanges_of_eq_withParts rfl⟩

theorem exec_ldI (nnn : Addr) (s : State) : exec (.ldI nnn) s = .next (s.withIndex (zext nnn)) := rfl

theorem exec_addIVx (x : Reg) (s : State) :
    exec (.addIVx x) s = .next (s.withIndex (s.i + (s.getV x).setWidth 16)) := rfl

theorem exec_ldFVx (x : Reg) (s : State) :
    exec (.ldFVx x) s = .next (s.withIndex (glyphAddress (s.getV x))) := rfl

/-- Settles O36: the 12-bit operand keeps its value in the 16-bit register. -/
theorem loadIndexSetsI : Obligations.LoadIndexSetsI := by
  unfold Obligations.LoadIndexSetsI
  intro nnn
  refine ⟨decodeWord_formatA_ldI nnn, fun s => ?_⟩
  exact ⟨_, exec_ldI nnn s, zext_toNat nnn, withIndex_frame s _⟩

/-- Settles O37: the byte keeps its value when it is widened, and the word addition wraps at 16 bits. -/
theorem addToIndexWrapsAtSixteenBits : Obligations.AddToIndexWrapsAtSixteenBits := by
  unfold Obligations.AddToIndexWrapsAtSixteenBits
  intro x
  refine ⟨decodeWord_misc x 0x1E, fun s => ?_⟩
  have widened : ((s.getV x).setWidth 16).toNat = (s.getV x).toNat :=
    BitVec.toNat_setWidth_of_le (by decide)
  have sum : (s.i + (s.getV x).setWidth 16).toNat = (s.i.toNat + (s.getV x).toNat) % 65536 := by
    rw [BitVec.toNat_add, widened]
  exact ⟨_, exec_addIVx x s, sum, withIndex_frame s _⟩

/-- Settles O38: masking by 0x0F is the reduction modulo 16 of the model's glyph address. -/
theorem glyphAddressIsFiveTimesTheDigit : Obligations.GlyphAddressIsFiveTimesTheDigit := by
  unfold Obligations.GlyphAddressIsFiveTimesTheDigit
  intro x
  refine ⟨decodeWord_misc x 0x29, fun s => ?_⟩
  have mask (n : Nat) : n &&& 0x0F = n % 16 := Nat.and_two_pow_sub_one_eq_mod n 4
  have glyph : (glyphAddress (s.getV x)).toNat = ((s.getV x).toNat &&& 0x0F) * 5 := by
    rw [glyphAddress_toNat, mask]
  exact ⟨_, exec_ldFVx x s, glyph, withIndex_frame s _⟩

end Sys2Proof.Machine

/-! PROOFS. Clearing the display (44_display.md): CLS (R190) has one word and one effect beside the driver's advance, the
dark plane shown to the host by DF. -/

namespace Sys2Proof.Machine

theorem decodeWord_cls : decodeWord 0x00E0#16 = .ok .cls := rfl

/-- The state after a CLS (R190). -/
def State.cleared (s : State) : State := ((s.setFb Framebuffer.clear).setDf true).setPc (s.pc + 2)

theorem exec_cls (s : State) : exec .cls s = .next s.cleared := rfl

/-- The plane of a CLS is dark, whatever it was before (R190). -/
theorem cleared_pixel (s : State) (px py : Nat) : s.cleared.fb.pixel px py = false := clear_pixel px py

/-- The frame of a CLS: the registers, VF among them, and all but the plane, DF and pc stay. -/
theorem cleared_frame (s : State) :
    s.cleared.df = true ∧ s.cleared.pc = s.pc + 2 ∧ OnlyChanges [.fb, .df, .pc] s s.cleared :=
  ⟨rfl, rfl, onlyChanges_of_eq_withParts rfl⟩

/-- Settles O40: the plane after a CLS is the cleared one, and its frame names what else is written. -/
theorem clearScreenDarkensEveryPixel : Obligations.ClearScreenDarkensEveryPixel := by
  unfold Obligations.ClearScreenDarkensEveryPixel
  refine ⟨decodeWord_cls, fun s => ?_⟩
  exact ⟨s.cleared, exec_cls s, fun px py _ _ => cleared_pixel s px py, cleared_frame s⟩

end Sys2Proof.Machine

/-! PROOFS. The keypad instructions (45_keypad.md): the two skips on a key (R200, R201) are the driver's skip on the key
that V[x] names, and the key wait (R202) stores the key that the lowest-key search finds, or rearms. -/

namespace Sys2Proof.Machine

/-! ## Their words decode -/

/-- The word Exkk as the statements write it: its last byte stands in the constant. -/
theorem formatXK_key (x : Reg) (kk : Byte) :
    formatXK 0xE x kk = BitVec.ofNat 16 (0xE000 + kk.toNat + x.val * 256) := by
  simp only [formatXK]
  congr 1
  omega

/-- Exkk is decoded by its last byte (R94). -/
theorem decodeWord_key (x : Reg) (kk : Byte) :
    decodeWord (BitVec.ofNat 16 (0xE000 + kk.toNat + x.val * 256)) = decodeKey x kk.toNat := by
  rw [← formatXK_key]
  simp [decodeWord]

/-! ## Skips on a key (R200, R201) -/

/-- Masking by 0x0F is the reduction modulo 16 of the model's key index. -/
theorem keyNamed_eq {s : State} {x : Reg} {k : Fin 16} (hk : k.val = (s.getV x).toNat &&& 0x0F) :
    s.keyNamed x = s.keys[k] := by
  have index : keyIndex (s.getV x) = k := by
    apply Fin.ext
    rw [keyIndex_val, hk]
    exact (Nat.and_two_pow_sub_one_eq_mod _ 4).symm
  simp only [State.keyNamed, index]

theorem exec_skp (x : Reg) (s : State) :
    exec (.skp x) s = .next (s.setPc (if s.keyNamed x then s.pc + 4 else s.pc + 2)) :=
  skipIf_eq (s.keyNamed x) s

theorem exec_sknp (x : Reg) (s : State) :
    exec (.sknp x) s = .next (s.setPc (if s.keyNamed x then s.pc + 2 else s.pc + 4)) := by
  have skip : exec (.sknp x) s = .next (s.setPc (if !s.keyNamed x then s.pc + 4 else s.pc + 2)) :=
    skipIf_eq (!s.keyNamed x) s
  rw [skip]
  cases s.keyNamed x <;> rfl

/-- Settles O44: both skips write pc alone, by the key that the low nibble of V[x] names. -/
theorem skipsOnAKey : Obligations.SkipsOnAKey := by
  unfold Obligations.SkipsOnAKey
  intro x
  refine ⟨decodeWord_key x 0x9E, decodeWord_key x 0xA1, fun s k hk => ?_⟩
  rw [← keyNamed_eq hk]
  exact ⟨⟨_, exec_skp x s, rfl, setPc_onlyChanges s _⟩, ⟨_, exec_sknp x s, rfl, setPc_onlyChanges s _⟩⟩

/-! ## The key wait (R202) -/

/-- With a key to find, the key wait is a result without a flag. -/
theorem exec_ldVxK_of_some (x : Reg) {s : State} {k : Fin 16} (h : s.lowestKey = some k) :
    exec (.ldVxK x) s = .next (s.withResult x (BitVec.ofNat 8 k.val)) := by
  simp only [exec, execLdVxK, h]
  rfl

/-- With no key to find, the key wait stays (R203). -/
theorem exec_ldVxK_of_none (x : Reg) {s : State} (h : s.lowestKey = none) : exec (.ldVxK x) s = .next s := by
  simp only [exec, execLdVxK, h, finish_rearm]

/-- Settles O45, by whether the search finds a key: the lowest pressed one, or none. -/
theorem keyWaitTakesTheLowestKeyOrStays : Obligations.KeyWaitTakesTheLowestKeyOrStays := by
  unfold Obligations.KeyWaitTakesTheLowestKeyOrStays
  intro x
  refine ⟨decodeWord_misc x 0x0A, fun s => ⟨fun k pressed lowest => ?_, fun released => ?_⟩⟩
  · have found : s.lowestKey = some k := lowestKey_eq_some.mpr ⟨pressed, lowest⟩
    have value : ((s.withResult x (BitVec.ofNat 8 k.val)).getV x).toNat = k.val := by
      rw [withResult_getV_same, BitVec.toNat_ofNat]
      omega
    exact ⟨_, exec_ldVxK_of_some x found, value, withResult_frame s x _⟩
  · exact exec_ldVxK_of_none x (lowestKey_eq_none.mpr released)

end Sys2Proof.Machine

/-! PROOFS. The timer instructions (46_timers.md): reading DT is a result without a flag (R210); writing DT or ST is the
one effect of its instruction beside the driver's advance (R211, R212). -/

namespace Sys2Proof.Machine

/-! ## Reading DT (R210) -/

theorem exec_ldVxDT (x : Reg) (s : State) : exec (.ldVxDT x) s = .next (s.withResult x s.dt) := rfl

/-! ## A new value of DT (R211) -/

/-- The state after an instruction whose one effect is `DT <- b`. -/
def State.withDelay (s : State) (b : Byte) : State := (s.setDt b).setPc (s.pc + 2)

/-- A new value of DT and its frame: the registers, VF among them, and all but DT and pc stay. -/
theorem withDelay_frame (s : State) (b : Byte) :
    (s.withDelay b).dt = b ∧ (s.withDelay b).pc = s.pc + 2 ∧ OnlyChanges [.dt, .pc] s (s.withDelay b) :=
  ⟨rfl, rfl, onlyChanges_of_eq_withParts rfl⟩

theorem exec_ldDTVx (x : Reg) (s : State) : exec (.ldDTVx x) s = .next (s.withDelay (s.getV x)) := rfl

/-! ## A new value of ST (R212) -/

/-- The state after an instruction whose one effect is `ST <- b`. -/
def State.withSound (s : State) (b : Byte) : State := (s.setSt b).setPc (s.pc + 2)

/-- A new value of ST and its frame: the registers, VF among them, and all but ST and pc stay. -/
theorem withSound_frame (s : State) (b : Byte) :
    (s.withSound b).st = b ∧ (s.withSound b).pc = s.pc + 2 ∧ OnlyChanges [.st, .pc] s (s.withSound b) :=
  ⟨rfl, rfl, onlyChanges_of_eq_withParts rfl⟩

theorem exec_ldSTVx (x : Reg) (s : State) : exec (.ldSTVx x) s = .next (s.withSound (s.getV x)) := rfl

/-- What the host is told of the sound: whether ST is above 0. -/
theorem perform_soundActive_result (s : State) : (perform .soundActive s).2 = .bool (decide (0 < s.st.toNat)) := rfl

/-- Settles O46: the read is a result without a flag, each write has its own frame, and the sound then follows ST. -/
theorem timerInstructionsCopyOneByte : Obligations.TimerInstructionsCopyOneByte := by
  unfold Obligations.TimerInstructionsCopyOneByte
  intro x
  refine ⟨decodeWord_misc x 0x07, decodeWord_misc x 0x15, decodeWord_misc x 0x18, fun s => ⟨?_, ?_, ?_⟩⟩
  · exact ⟨_, exec_ldVxDT x s, withResult_getV_same s x _, withResult_frame s x _⟩
  · exact ⟨_, exec_ldDTVx x s, withDelay_frame s _⟩
  · obtain ⟨st, pc, only⟩ := withSound_frame s (s.getV x)
    have sound : (perform .soundActive (s.withSound (s.getV x))).2 = .bool (decide (0 < (s.getV x).toNat)) := by
      rw [perform_soundActive_result, st]
    exact ⟨_, exec_ldSTVx x s, st, pc, only, sound⟩

end Sys2Proof.Machine

/-! PROOFS. The memory transfers (47_memory_transfer.md): LD B,Vx (R221) and LD [I],Vx (R222) store at masked addresses
from I, LD Vx,[I] (R223) loads from them. Each is one shared operation followed by the driver's advance. -/

namespace Sys2Proof.Machine

/-- An effective address is masked already (R220). -/
@[simp] theorem ea_mod (s : State) (k : Nat) : s.ea k % 4096 = s.ea k := Nat.mod_mod _ _

/-! ## The three decimal digits (R221) -/

/-- The law of the digits and their ranges fix each of them. -/
theorem bcdDigits_toNat (b : Byte) :
    (bcdDigits b).1.toNat = b.toNat / 100 ∧ (bcdDigits b).2.1.toNat = b.toNat / 10 % 10 ∧
      (bcdDigits b).2.2.toNat = b.toNat % 10 := by
  have law := bcdDigits_law b
  omega

/-- A store of three bytes puts each at its own address: the three addresses are distinct (R75). -/
theorem storeDigits_memRead_ea {s : State} (h : s.mem.wf) (d : Byte × Byte × Byte) :
    (s.storeDigits d).memRead (s.ea 0) = d.1 ∧ (s.storeDigits d).memRead (s.ea 1) = d.2.1 ∧
      (s.storeDigits d).memRead (s.ea 2) = d.2.2 := by
  simp [State.storeDigits_memRead h, ea_inj]

/-- A byte at none of the three addresses reads as before. -/
theorem storeDigits_memRead_other {s : State} (h : s.mem.wf) (d : Byte × Byte × Byte) {a : Nat}
    (ha : ∀ k, k < 3 → a % 4096 ≠ s.ea k) : (s.storeDigits d).memRead a = s.memRead a := by
  rw [State.storeDigits_memRead h, if_neg (ha 2 (by decide)), if_neg (ha 1 (by decide)), if_neg (ha 0 (by decide))]

/-- The state after an LD B,Vx. -/
def State.withDigits (s : State) (x : Reg) : State := (s.storeDigits (bcdDigits (s.getV x))).setPc (s.pc + 2)

theorem exec_ldBVx (x : Reg) (s : State) : exec (.ldBVx x) s = .next (s.withDigits x) := rfl

/-- The frame of an LD B,Vx: I, the registers and all but memory and pc stay. -/
theorem withDigits_frame (s : State) (x : Reg) :
    (s.withDigits x).pc = s.pc + 2 ∧ OnlyChanges [.mem, .pc] s (s.withDigits x) :=
  ⟨rfl, onlyChanges_of_eq_withParts rfl⟩

/-- Settles O48: the digits' store read at its three addresses and elsewhere, with the value of each digit. -/
theorem storeDigitsWritesThreeBytes : Obligations.StoreDigitsWritesThreeBytes := by
  unfold Obligations.StoreDigitsWritesThreeBytes
  intro x
  refine ⟨decodeWord_misc x 0x33, fun s h => ⟨_, exec_ldBVx x s, ?_⟩⟩
  obtain ⟨at0, at1, at2⟩ := storeDigits_memRead_ea h (bcdDigits (s.getV x))
  obtain ⟨hundreds, tens, ones⟩ := bcdDigits_toNat (s.getV x)
  rw [← at0] at hundreds
  rw [← at1] at tens
  rw [← at2] at ones
  exact ⟨hundreds, tens, ones, fun _ => storeDigits_memRead_other h _, withDigits_frame s x⟩

/-! ## Storing V0..Vx (R222) -/

/-- The state after an LD [I],Vx. -/
def State.withStoredRegs (s : State) (x : Reg) : State := (s.storeRegs (regsUpTo x)).setPc (s.pc + 2)

/-- The store leaves pc to the driver's advance. -/
theorem exec_ldMemVx (x : Reg) (s : State) : exec (.ldMemVx x) s = .next (s.withStoredRegs x) := by
  obtain ⟨m, -, hm⟩ := s.storeRegs_frame (regsUpTo x)
  simp only [exec, execLdMemVx, State.withStoredRegs, hm]
  rfl

/-- The frame of an LD [I],Vx: I, the registers and all but memory and pc stay. -/
theorem withStoredRegs_frame (s : State) (x : Reg) :
    (s.withStoredRegs x).pc = s.pc + 2 ∧ OnlyChanges [.mem, .pc] s (s.withStoredRegs x) := by
  obtain ⟨m, -, hm⟩ := s.storeRegs_frame (regsUpTo x)
  simp only [State.withStoredRegs, hm]
  exact ⟨rfl, onlyChanges_of_eq_withParts rfl⟩

/-- Settles O49: the store of a list of registers, read for the list V0..Vx. -/
theorem storeRegistersWritesTheRange : Obligations.StoreRegistersWritesTheRange := by
  unfold Obligations.StoreRegistersWritesTheRange
  intro x
  refine ⟨decodeWord_misc x 0x55, fun s h => ⟨_, exec_ldMemVx x s, fun r hr => ?_, fun a ha => ?_,
    withStoredRegs_frame s x⟩⟩
  · exact State.storeRegs_memRead _ s h (mem_regsUpTo.mpr hr)
  · exact State.storeRegs_memRead_other _ a s h fun r hr => ha r (mem_regsUpTo.mp hr)

/-! ## Loading V0..Vx (R223) -/

/-- The state after an LD Vx,[I]. -/
def State.withLoadedRegs (s : State) (x : Reg) : State := (s.loadRegs (regsUpTo x)).setPc (s.pc + 2)

/-- The load leaves pc to the driver's advance. -/
theorem exec_ldVxMem (x : Reg) (s : State) : exec (.ldVxMem x) s = .next (s.withLoadedRegs x) := by
  obtain ⟨v, hv⟩ := s.loadRegs_frame (regsUpTo x)
  simp only [exec, execLdVxMem, State.withLoadedRegs, hv]
  rfl

/-- The frame of an LD Vx,[I]: I, memory and all but V and pc stay. -/
theorem withLoadedRegs_frame (s : State) (x : Reg) :
    (s.withLoadedRegs x).pc = s.pc + 2 ∧ OnlyChanges [.v, .pc] s (s.withLoadedRegs x) := by
  obtain ⟨v, hv⟩ := s.loadRegs_frame (regsUpTo x)
  simp only [State.withLoadedRegs, hv]
  exact ⟨rfl, onlyChanges_of_eq_withParts rfl⟩

/-- Everything an LD Vx,[I] does to registers: the range V0..Vx is loaded, the registers above x stay. -/
theorem withLoadedRegs_getV (s : State) (x r : Reg) :
    (s.withLoadedRegs x).getV r = if r ≤ x then s.memRead (s.ea r.val) else s.getV r := by
  simp only [State.withLoadedRegs, State.setPc_getV, State.loadRegs_getV, mem_regsUpTo]

/-- Settles O50, by whether the register is in the range. -/
theorem loadRegistersReadsTheRange : Obligations.LoadRegistersReadsTheRange := by
  unfold Obligations.LoadRegistersReadsTheRange
  intro x
  refine ⟨decodeWord_misc x 0x65, fun s => ⟨_, exec_ldVxMem x s, fun r hr => ?_, fun r hr => ?_,
    withLoadedRegs_frame s x⟩⟩
  · rw [withLoadedRegs_getV, if_pos hr, ea_eq]
  · rw [withLoadedRegs_getV, if_neg (not_le.mpr hr)]

end Sys2Proof.Machine

/-! PROOFS. The host's ticks (60_exceptions.md R250): a run of ticks sets DT and ST to their iterated `tickDown` and is one
state update, so its frame is that of the two writes. -/

namespace Sys2Proof.Machine

/-- A timer after `n` ticks: at 0 it stays (R30), by the saturating difference of one tick. -/
theorem iterate_tickDown_toNat (n : Nat) (t : Byte) : (tickDown^[n] t).toNat = t.toNat - n := by
  induction n with
  | zero => rfl
  | succ n ih => rw [Function.iterate_succ_apply', tickDown_toNat, ih, Nat.sub_sub]

/-- The state after `n` ticks (R250): each timer ticked `n` times on its own. -/
def State.ticked (s : State) (n : Nat) : State := (s.setDt (tickDown^[n] s.dt)).setSt (tickDown^[n] s.st)

/-- A tick first, then `n` more, is `n + 1` ticks. -/
theorem State.tickTimers_ticked (s : State) (n : Nat) : s.tickTimers.ticked n = s.ticked (n + 1) := rfl

/-- The schedule of `n` ticks ends in that state. -/
theorem performAll_replicate_tickTimers (n : Nat) (s : State) :
    (performAll (List.replicate n .tickTimers) s).1 = s.ticked n := by
  induction n generalizing s with
  | zero => rfl
  | succ n ih =>
    calc (performAll (List.replicate (n + 1) .tickTimers) s).1
      _ = (performAll (List.replicate n .tickTimers) s.tickTimers).1 := rfl
      _ = s.tickTimers.ticked n := ih s.tickTimers
      _ = s.ticked (n + 1) := s.tickTimers_ticked n

/-- Settles O47: the schedule's state writes the two iterated timers and no other part. -/
theorem ticksCountBothTimersDownToZero : Obligations.TicksCountBothTimersDownToZero := by
  unfold Obligations.TicksCountBothTimersDownToZero
  intro n s
  rw [performAll_replicate_tickTimers]
  exact ⟨iterate_tickDown_toNat n s.dt, iterate_tickDown_toNat n s.st, onlyChanges_of_eq_withParts rfl⟩

end Sys2Proof.Machine

/-! PROOFS. `reset()` (70_reset_and_hazards.md R270): the arrays of the state it leaves read 0 or false at every entry, and
its memory reads as the contents after reset, the fontset and 0 above it (R44, R60). -/

namespace Sys2Proof.Machine

/-! ## The contents of memory after reset (R60, R62) -/

theorem fontset_length : fontset.length = 0x50 := rfl

theorem resetByte_of_lt {a : Nat} (h : a < fontset.length) : Memory.resetByte a = fontset[a] := by
  simp only [Memory.resetByte, List.getElem?_eq_getElem h, Option.getD_some]

theorem resetByte_of_ge {a : Nat} (h : 0x50 ≤ a) : Memory.resetByte a = 0 := by
  have absent : fontset[a]? = none := List.getElem?_eq_none h
  simp only [Memory.resetByte, absent, Option.getD_none]

/-! ## What is read after a reset -/

/-- Reset memory lists nothing, so an address below 4096 reads its reset byte. -/
theorem resetOp_memRead (s : State) {a : Nat} (h : a < 0x1000) : s.resetOp.memRead a = Memory.resetByte a := by
  have masked : s.resetOp.memRead a = Memory.resetByte (a % 4096) := rfl
  rw [masked, Nat.mod_eq_of_lt h]

@[simp] theorem resetOp_getV (s : State) (r : Reg) : s.resetOp.getV r = 0 := Vector.getElem_replicate r.isLt

@[simp] theorem resetOp_stk (s : State) (k : Fin 16) : s.resetOp.stk[k] = 0 := Vector.getElem_replicate k.isLt

@[simp] theorem resetOp_keys (s : State) (k : Fin 16) : s.resetOp.keys[k] = false := Vector.getElem_replicate k.isLt

/-- The plane after a reset is the cleared one. -/
@[simp] theorem resetOp_pixel (s : State) (px py : Nat) : s.resetOp.fb.pixel px py = false := clear_pixel px py

/-- Settles O56: the scalars stand in the definition of the reset state, the arrays are read entry by entry, and memory
by whether the address is below the end of the fontset. -/
theorem resetLeavesEveryFieldAtItsResetValue : Obligations.ResetLeavesEveryFieldAtItsResetValue := by
  unfold Obligations.ResetLeavesEveryFieldAtItsResetValue
  intro s
  refine ⟨resetOp_getV s, rfl, rfl, rfl, resetOp_stk s, rfl, rfl, fun px py _ _ => resetOp_pixel s px py, rfl,
    resetOp_keys s, fontset_length, fun a font => ?_, fun a above inside => ?_⟩
  · have inside : a < 0x1000 := font.trans (by rw [fontset_length]; decide)
    exact (resetOp_memRead s inside).trans (resetByte_of_lt font)
  · exact (resetOp_memRead s inside).trans (resetByte_of_ge above)

end Sys2Proof.Machine

/-! PROOFS. The encoder and the decoder undo each other (30_encoding.md section 4): each family of words decodes to its
instruction, and a word is the format of its own fields. -/

namespace Sys2Proof.Machine

/-! ## The words of the encoder decode -/

theorem decodeWord_ret : decodeWord 0x00EE#16 = .ok .ret := rfl

theorem decodeWord_formatXK_seImm (x : Reg) (kk : Byte) : decodeWord (formatXK 0x3 x kk) = .ok (.seImm x kk) := by
  simp [decodeWord]

theorem decodeWord_formatXK_sneImm (x : Reg) (kk : Byte) : decodeWord (formatXK 0x4 x kk) = .ok (.sneImm x kk) := by
  simp [decodeWord]

theorem decodeWord_formatXK_ldImm (x : Reg) (kk : Byte) : decodeWord (formatXK 0x6 x kk) = .ok (.ldImm x kk) := by
  simp [decodeWord]

theorem decodeWord_formatXK_rnd (x : Reg) (kk : Byte) : decodeWord (formatXK 0xC x kk) = .ok (.rnd x kk) := by
  simp [decodeWord]

theorem decodeWord_nibbles_seReg (x y : Reg) : decodeWord (nibbles 0x5 x y 0x0) = .ok (.seReg x y) := by
  simp [decodeWord]

theorem decodeWord_nibbles_sneReg (x y : Reg) : decodeWord (nibbles 0x9 x y 0x0) = .ok (.sneReg x y) := by
  simp [decodeWord]

theorem decodeWord_nibbles_drw (x y : Reg) (n : Fin 16) : decodeWord (nibbles 0xD x y n) = .ok (.drw x y n) := by
  simp [decodeWord]

/-- 8xyn, written in nibbles, is decoded by its last nibble (R94). -/
theorem decodeWord_nibbles_alu (x y : Reg) (n : Fin 16) : decodeWord (nibbles 0x8 x y n) = decodeAlu x y n := by
  rw [nibbles_alu, decodeWord_alu]

/-- Excd, written in nibbles, is decoded by its last byte (R94). -/
theorem decodeWord_nibbles_key (x : Reg) (c d : Fin 16) :
    decodeWord (nibbles 0xE x c d) = decodeKey x (c.val * 16 + d.val) := by
  simp [decodeWord]

/-- Fxcd, written in nibbles, is decoded by its last byte (R94). -/
theorem decodeWord_nibbles_misc (x : Reg) (c d : Fin 16) :
    decodeWord (nibbles 0xF x c d) = decodeMisc x (c.val * 16 + d.val) := by
  simp [decodeWord]

/-- Settles O1, one instruction after another, by the family of words its encoding belongs to. -/
theorem decodeOfEncodeIsIdentity : Obligations.DecodeOfEncodeIsIdentity := by
  unfold Obligations.DecodeOfEncodeIsIdentity
  intro i
  cases i with
  | cls => exact decodeWord_cls
  | ret => exact decodeWord_ret
  | jp nnn => exact decodeWord_formatA_jp nnn
  | call nnn => exact decodeWord_formatA_call nnn
  | ldI nnn => exact decodeWord_formatA_ldI nnn
  | jpV0 nnn => exact decodeWord_formatA_jpV0 nnn
  | seImm x kk => exact decodeWord_formatXK_seImm x kk
  | sneImm x kk => exact decodeWord_formatXK_sneImm x kk
  | ldImm x kk => exact decodeWord_formatXK_ldImm x kk
  | addImm x kk => exact decodeWord_formatXK_addImm x kk
  | rnd x kk => exact decodeWord_formatXK_rnd x kk
  | seReg x y => exact decodeWord_nibbles_seReg x y
  | sneReg x y => exact decodeWord_nibbles_sneReg x y
  | drw x y n => exact decodeWord_nibbles_drw x y n
  | ldReg x y => exact decodeWord_nibbles_alu x y 0x0
  | orReg x y => exact decodeWord_nibbles_alu x y 0x1
  | andReg x y => exact decodeWord_nibbles_alu x y 0x2
  | xorReg x y => exact decodeWord_nibbles_alu x y 0x3
  | addReg x y => exact decodeWord_nibbles_alu x y 0x4
  | subReg x y => exact decodeWord_nibbles_alu x y 0x5
  | shr x y => exact decodeWord_nibbles_alu x y 0x6
  | subnReg x y => exact decodeWord_nibbles_alu x y 0x7
  | shl x y => exact decodeWord_nibbles_alu x y 0xE
  | skp x => exact decodeWord_nibbles_key x 0x9 0xE
  | sknp x => exact decodeWord_nibbles_key x 0xA 0x1
  | ldVxDT x => exact decodeWord_nibbles_misc x 0x0 0x7
  | ldVxK x => exact decodeWord_nibbles_misc x 0x0 0xA
  | ldDTVx x => exact decodeWord_nibbles_misc x 0x1 0x5
  | ldSTVx x => exact decodeWord_nibbles_misc x 0x1 0x8
  | addIVx x => exact decodeWord_nibbles_misc x 0x1 0xE
  | ldFVx x => exact decodeWord_nibbles_misc x 0x2 0x9
  | ldBVx x => exact decodeWord_nibbles_misc x 0x3 0x3
  | ldMemVx x => exact decodeWord_nibbles_misc x 0x5 0x5
  | ldVxMem x => exact decodeWord_nibbles_misc x 0x6 0x5

/-! ## A word is the format of its fields -/

theorem formatA_fields {op : Word} {m : Nat} (h : majorOf op = m) : formatA m (nnnOf op) = op := by
  rw [majorOf_val] at h
  have := op.isLt
  apply BitVec.eq_of_toNat_eq
  rw [formatA_toNat (by omega), nnnOf_toNat]
  omega

theorem formatXK_fields {op : Word} {m : Nat} (h : majorOf op = m) : formatXK m (xOf op) (kkOf op) = op := by
  rw [majorOf_val] at h
  have := op.isLt
  apply BitVec.eq_of_toNat_eq
  rw [formatXK_toNat (by omega), xOf_val, kkOf_toNat]
  omega

theorem nibbles_fields {op : Word} {m : Nat} (h : majorOf op = m) :
    nibbles m (xOf op) (yOf op) (nOf op) = op := by
  rw [majorOf_val] at h
  have := op.isLt
  apply BitVec.eq_of_toNat_eq
  rw [nibbles_toNat (by omega) (xOf op).isLt (yOf op).isLt (nOf op).isLt, xOf_val, yOf_val, nOf_val]
  omega

theorem nibbles_byte_fields {op : Word} {m : Nat} (h : majorOf op = m) :
    nibbles m (xOf op) ((kkOf op).toNat / 16) ((kkOf op).toNat % 16) = op := by
  rw [majorOf_val] at h
  have := op.isLt
  apply BitVec.eq_of_toNat_eq
  rw [nibbles_toNat (by omega) (xOf op).isLt (by omega) (by omega), xOf_val, kkOf_toNat]
  omega

/-! ## What is decoded encodes back -/

theorem encode_of_decodeAlu {x y : Reg} {n : Nat} {i : Instr} (h : decodeAlu x y n = .ok i) :
    encode i = nibbles 0x8 x y n := by
  unfold decodeAlu at h
  split at h <;> cases h <;> rfl

theorem encode_of_decodeKey {x : Reg} {b : Nat} {i : Instr} (h : decodeKey x b = .ok i) :
    encode i = nibbles 0xE x (b / 16) (b % 16) := by
  unfold decodeKey at h
  split at h <;> cases h <;> rfl

theorem encode_of_decodeMisc {x : Reg} {b : Nat} {i : Instr} (h : decodeMisc x b = .ok i) :
    encode i = nibbles 0xF x (b / 16) (b % 16) := by
  unfold decodeMisc at h
  split at h <;> cases h <;> rfl

theorem majorOf_lt (op : Word) : majorOf op < 16 := by
  have := op.isLt
  rw [majorOf_val]
  omega

/-- By the major opcode, the family of words it decodes (R94). -/
theorem encode_of_decodeWord {op : Word} {i : Instr} (h : decodeWord op = .ok i) : encode i = op := by
  unfold decodeWord at h
  split at h
  case h_1 =>
    split_ifs at h with hcls hret
    · cases h; exact hcls.symm
    · cases h; exact hret.symm
  case h_2 hm | h_3 hm | h_11 hm | h_12 hm => cases h; exact formatA_fields hm
  case h_4 hm | h_5 hm | h_7 hm | h_8 hm | h_13 hm => cases h; exact formatXK_fields hm
  case h_6 hm | h_10 hm =>
    split_ifs at h with hn
    cases h
    have := nibbles_fields hm
    rwa [hn] at this
  case h_9 hm => rw [encode_of_decodeAlu h]; exact nibbles_fields hm
  case h_14 hm => cases h; exact nibbles_fields hm
  case h_15 hm => rw [encode_of_decodeKey h]; exact nibbles_byte_fields hm
  case h_16 =>
    have hm : majorOf op = 0xF := by grind [majorOf_lt]
    rw [encode_of_decodeMisc h]
    exact nibbles_byte_fields hm

/-- Settles O2. -/
theorem encodeOfDecodeIsIdentity : Obligations.EncodeOfDecodeIsIdentity := by
  unfold Obligations.EncodeOfDecodeIsIdentity
  intro op i h
  exact encode_of_decodeWord h

end Sys2Proof.Machine

/-! PROOFS. The invalid words (30_encoding.md section 5) and the opcode map (section 4): when the decoder rejects a word and
under which name, and that a word matching a row of R93 is not rejected. -/

namespace Sys2Proof.Machine

/-! ## When each table of the decoder rejects -/

theorem decodeAlu_eq_error {x y : Reg} {n : Nat} {e : DecodeError} : decodeAlu x y n = .error e ↔
    e = .aluNibble ∧ n ∉ [0, 1, 2, 3, 4, 5, 6, 7, 0xE] := by
  unfold decodeAlu
  split <;> simp_all [eq_comm]

theorem decodeKey_eq_error {x : Reg} {b : Nat} {e : DecodeError} : decodeKey x b = .error e ↔
    e = .keyByte ∧ b ∉ [0x9E, 0xA1] := by
  unfold decodeKey
  split <;> simp_all [eq_comm]

theorem decodeMisc_eq_error {x : Reg} {b : Nat} {e : DecodeError} : decodeMisc x b = .error e ↔
    e = .miscByte ∧ b ∉ [0x07, 0x0A, 0x15, 0x18, 0x1E, 0x29, 0x33, 0x55, 0x65] := by
  unfold decodeMisc
  split <;> simp_all [eq_comm]

/-- The classes of R95 by name, as conditions on the word's number; no word is truncated. -/
def InvalidAs (w : Nat) : DecodeError → Prop
  | .machineCall => w < 0x1000 ∧ w ≠ 0x00E0 ∧ w ≠ 0x00EE
  | .seNibble => w / 4096 = 5 ∧ w % 16 ≠ 0
  | .aluNibble => w / 4096 = 8 ∧ (8 ≤ w % 16 ∧ w % 16 ≤ 13 ∨ w % 16 = 15)
  | .sneNibble => w / 4096 = 9 ∧ w % 16 ≠ 0
  | .keyByte => w / 4096 = 14 ∧ w % 256 ∉ [0x9E, 0xA1]
  | .miscByte => w / 4096 = 15 ∧ w % 256 ∉ [0x07, 0x0A, 0x15, 0x18, 0x1E, 0x29, 0x33, 0x55, 0x65]
  | .truncated => False

/-- The other major opcodes have no invalid word. -/
theorem not_invalidAs_of_major {w : Nat} (h : w / 4096 ∉ [0, 5, 8, 9, 14, 15]) (e : DecodeError) :
    ¬ InvalidAs w e := by
  cases e <;> simp [InvalidAs] at h ⊢ <;> omega

theorem nOf_eq_zero {op : Word} : nOf op = 0 ↔ op.toNat % 16 = 0 := by
  rw [← nOf_val, Fin.ext_iff, Fin.val_zero]

/-- WHEN A WORD IS REJECTED, and under which name (R95): by the major opcode, the condition its family tests. -/
theorem decodeWord_eq_error {op : Word} {e : DecodeError} : decodeWord op = .error e ↔ InvalidAs op.toNat e := by
  have major := majorOf_val op
  have bound := majorOf_lt op
  unfold decodeWord
  split
  case' h_1 hm =>
    simp only [← BitVec.toNat_inj, BitVec.toNat_ofNat]
    split_ifs
  case' h_6 hm | h_10 hm =>
    simp only [nOf_eq_zero]
    split_ifs
  case' h_9 hm => rw [decodeAlu_eq_error, nOf_val]
  case' h_15 hm => rw [decodeKey_eq_error, kkOf_toNat]
  case' h_16 =>
    have hm : majorOf op = 0xF := by grind
    rw [decodeMisc_eq_error, kkOf_toNat]
  all_goals cases e <;> simp [InvalidAs] <;> omega

/-- Settles O4: the classes of the table are the conditions on which the decoder rejects. -/
theorem invalidWordsAreTheSixClasses : Obligations.InvalidWordsAreTheSixClasses := by
  unfold Obligations.InvalidWordsAreTheSixClasses
  intro op
  simp only [decodeWord_eq_error, InvalidAs, ne_eq, ← BitVec.toNat_inj, BitVec.toNat_ofNat]
  simp

/-! ## A word that matches a row is not rejected -/

/-- The row's mask keeps the digits that the decoder tests under the major opcode of its value, and its value has digits
that the decoder accepts. -/
abbrev AcceptedRow (r : OpcodeRow) : Prop :=
  let major := r.value.toNat / 4096
  (r.mask = 0xFFFF#16 ∧ r.value ∈ [0x00E0, 0x00EE]) ∨
  (r.mask = 0xF000#16 ∧ major ∉ [0, 5, 8, 9, 14, 15]) ∨
  (r.mask = 0xF00F#16 ∧ (major ∈ [5, 9] ∧ r.value.toNat % 16 = 0 ∨
    major = 8 ∧ r.value.toNat % 16 ∈ [0, 1, 2, 3, 4, 5, 6, 7, 0xE])) ∨
  (r.mask = 0xF0FF#16 ∧ (major = 14 ∧ r.value.toNat % 256 ∈ [0x9E, 0xA1] ∨
    major = 15 ∧ r.value.toNat % 256 ∈ [0x07, 0x0A, 0x15, 0x18, 0x1E, 0x29, 0x33, 0x55, 0x65]))

theorem opcodeRows_accepted : ∀ r ∈ opcodeRows, AcceptedRow r := by
  decide

/-- A word that matches two rows has, under the digits both test, the value of each. -/
theorem opcodeRows_disjoint : ∀ r ∈ opcodeRows, ∀ r' ∈ opcodeRows,
    r.value &&& r'.mask = r'.value &&& r.mask → r = r' := by
  decide

/-- By the row's mask: the tested digits of the value are those of the word. -/
theorem not_invalidAs_of_matches {r : OpcodeRow} (hr : AcceptedRow r) {op : Word} (h : r.Matches op) (e : DecodeError) :
    ¬ InvalidAs op.toNat e := by
  obtain ⟨number, value, mask⟩ := r
  simp only [AcceptedRow, OpcodeRow.Matches] at hr h
  subst h
  rcases hr with ⟨rfl, hv⟩ | ⟨rfl, hv⟩ | ⟨rfl, hv⟩ | ⟨rfl, hv⟩
  · have whole : op &&& 0xFFFF#16 = op := BitVec.and_allOnes
    simp only [whole, List.mem_cons, List.not_mem_nil, or_false] at hv
    rcases hv with rfl | rfl <;> cases e <;> simp [InvalidAs]
  · refine not_invalidAs_of_major ?_ e
    rw [and_F000] at hv
    simpa using hv
  · simp only [and_F00F, List.mem_cons, List.not_mem_nil, or_false] at hv
    cases e <;> simp [InvalidAs] <;> omega
  · simp only [and_F0FF, List.mem_cons, List.not_mem_nil, or_false] at hv
    cases e <;> simp [InvalidAs] <;> omega

/-- Every instruction's encoding matches its own row of R93. -/
theorem encodesRow (i : Instr) : Laws.EncodesRow.Statement i := by
  cases i
  exacts [Laws.EncodesRow.cls, Laws.EncodesRow.ret, Laws.EncodesRow.jp _, Laws.EncodesRow.call _,
    Laws.EncodesRow.seImm _ _, Laws.EncodesRow.sneImm _ _, Laws.EncodesRow.seReg _ _, Laws.EncodesRow.ldImm _ _,
    Laws.EncodesRow.addImm _ _, Laws.EncodesRow.ldReg _ _, Laws.EncodesRow.orReg _ _, Laws.EncodesRow.andReg _ _,
    Laws.EncodesRow.xorReg _ _, Laws.EncodesRow.addReg _ _, Laws.EncodesRow.subReg _ _, Laws.EncodesRow.shr _ _,
    Laws.EncodesRow.subnReg _ _, Laws.EncodesRow.shl _ _, Laws.EncodesRow.sneReg _ _, Laws.EncodesRow.ldI _,
    Laws.EncodesRow.jpV0 _, Laws.EncodesRow.rnd _ _, Laws.EncodesRow.drw _ _ _, Laws.EncodesRow.skp _,
    Laws.EncodesRow.sknp _, Laws.EncodesRow.ldVxDT _, Laws.EncodesRow.ldVxK _, Laws.EncodesRow.ldDTVx _,
    Laws.EncodesRow.ldSTVx _, Laws.EncodesRow.addIVx _, Laws.EncodesRow.ldFVx _, Laws.EncodesRow.ldBVx _,
    Laws.EncodesRow.ldMemVx _, Laws.EncodesRow.ldVxMem _]

/-- A word that decodes to an instruction is its encoding, so it matches the instruction's row. -/
theorem matches_row_of_decodeWord {op : Word} {i : Instr} (h : decodeWord op = .ok i) :
    ∃ r ∈ opcodeRows, r.Matches op ∧ r.number = i.rowNumber := by
  obtain ⟨r, hget, hnumber, hmatch⟩ := encodesRow i
  rw [encode_of_decodeWord h] at hmatch
  exact ⟨r, List.mem_of_getElem? hget, hmatch, hnumber⟩

/-- A word that matches a row is not rejected, so it decodes. -/
theorem decodes_of_matches {r : OpcodeRow} (hr : r ∈ opcodeRows) {op : Word} (h : r.Matches op) :
    ∃ i, decodeWord op = .ok i := by
  cases hd : decodeWord op with
  | ok i => exact ⟨i, rfl⟩
  | error e => exact absurd (decodeWord_eq_error.mp hd) (not_invalidAs_of_matches (opcodeRows_accepted r hr) h e)

/-- A word that matches two rows has the value of each under the digits that both test. -/
theorem value_and_mask_of_matches {r r' : OpcodeRow} {op : Word} (h : r.Matches op) (h' : r'.Matches op) :
    r.value &&& r'.mask = r'.value &&& r.mask := by
  simp only [OpcodeRow.Matches] at h h'
  rw [← h, ← h', BitVec.and_assoc, BitVec.and_comm r.mask, ← BitVec.and_assoc]

/-- Settles O3: the rows are disjoint since no two have values that agree under the digits both test; a word that decodes
matches its instruction's row, and a word that matches a row is not rejected. -/
theorem decodingFollowsTheOpcodeMap : Obligations.DecodingFollowsTheOpcodeMap := by
  unfold Obligations.DecodingFollowsTheOpcodeMap
  refine ⟨fun op r hr r' hr' h h' => ?_, fun op => ⟨?_, ?_⟩, fun op i h => matches_row_of_decodeWord h⟩
  · exact opcodeRows_disjoint r hr r' hr' (value_and_mask_of_matches h h')
  · rintro ⟨i, hi⟩
    obtain ⟨r, hr, hmatch, -⟩ := matches_row_of_decodeWord hi
    exact ⟨r, hr, hmatch⟩
  · rintro ⟨r, hr, hmatch⟩
    exact decodes_of_matches hr hmatch

/-- Settles O5: each word, laid out as in memory and decoded. -/
theorem wordsOfEachFormat : Obligations.WordsOfEachFormat := by
  unfold Obligations.WordsOfEachFormat
  decide

end Sys2Proof.Machine

/-! PROOFS. The listings (30_encoding.md R98): a well-formed line assembles through `instrOf`, which reads an instruction
back from its listing. -/

namespace Sys2Proof.Machine

@[simp] theorem regOf_val (x : Reg) : regOf x.val = x := Fin.ofNat_val_eq_self x

/-- Every instruction's listing passes the check of R98. -/
theorem listing_wellFormed (i : Instr) : i.listing.wellFormed = true := by
  cases i
  exacts [Laws.ListsWell.cls, Laws.ListsWell.ret, Laws.ListsWell.jp _, Laws.ListsWell.call _,
    Laws.ListsWell.seImm _ _, Laws.ListsWell.sneImm _ _, Laws.ListsWell.seReg _ _, Laws.ListsWell.ldImm _ _,
    Laws.ListsWell.addImm _ _, Laws.ListsWell.ldReg _ _, Laws.ListsWell.orReg _ _, Laws.ListsWell.andReg _ _,
    Laws.ListsWell.xorReg _ _, Laws.ListsWell.addReg _ _, Laws.ListsWell.subReg _ _, Laws.ListsWell.shr _ _,
    Laws.ListsWell.subnReg _ _, Laws.ListsWell.shl _ _, Laws.ListsWell.sneReg _ _, Laws.ListsWell.ldI _,
    Laws.ListsWell.jpV0 _, Laws.ListsWell.rnd _ _, Laws.ListsWell.drw _ _ _, Laws.ListsWell.skp _,
    Laws.ListsWell.sknp _, Laws.ListsWell.ldVxDT _, Laws.ListsWell.ldVxK _, Laws.ListsWell.ldDTVx _,
    Laws.ListsWell.ldSTVx _, Laws.ListsWell.addIVx _, Laws.ListsWell.ldFVx _, Laws.ListsWell.ldBVx _,
    Laws.ListsWell.ldMemVx _, Laws.ListsWell.ldVxMem _]

theorem assemble_instr {m : Mnemonic} {ops : List Operand} {i : Instr} (h : (AsmLine.instr m ops).wellFormed = true)
    (hi : instrOf m ops = some i) : assemble (.instr m ops) = some (encode i) := by
  simp [assemble, h, hi]

/-- An instruction is read back from its listing: each operand keeps its value in its field. -/
theorem assemble_listing (i : Instr) : assemble i.listing = some (encode i) := by
  have wf := listing_wellFormed i
  cases i <;> exact assemble_instr wf (by simp [instrOf])

/-- A shift written without its `y` is well formed. -/
theorem shift_wellFormed {m : Mnemonic} (hm : m = .shr ∨ m = .shl) (x : Reg) :
    (AsmLine.instr m [.v x]).wellFormed = true := by
  rcases hm with rfl | rfl <;>
    simp [AsmLine.wellFormed, Mnemonic.shapes, Mnemonic.numLimit, Operand.kind, Operand.fits, jumpRegisterOk]

theorem assemble_dw (op : Word) : assemble (.dw op.toNat) = some op := by
  have fits := op.isLt
  simp [assemble, AsmLine.wellFormed, fits]

/-- Settles O6: listings, the shifts without their `y`, and data words. -/
theorem listingAssemblesToTheWord : Obligations.ListingAssemblesToTheWord := by
  unfold Obligations.ListingAssemblesToTheWord
  refine ⟨assemble_listing, fun x => ⟨?_, ?_⟩, assemble_dw⟩
  · exact assemble_instr (shift_wellFormed (.inl rfl) x) (by simp [instrOf])
  · exact assemble_instr (shift_wellFormed (.inr rfl) x) (by simp [instrOf])

end Sys2Proof.Machine

/-! PROOFS. What an instruction and a step can answer (60_exceptions.md section 1): only CALL and RET trap, on a full and on
an empty stack, and nothing is refused. -/

namespace Sys2Proof.Machine

/-! ## Returns (R141) -/

/-- The state after a RET at stack depth SP > 0 (R141). -/
def State.returned (s : State) (h : 0 < s.sp.val) : State :=
  { s with
    sp := ⟨s.sp.val - 1, by omega⟩
    pc := s.stk[s.sp.val - 1]'(by omega) }

/-- A RET with an entry to pop completes (R141). -/
theorem exec_ret_of_pos {s : State} (h : 0 < s.sp.val) : exec .ret s = .next (s.returned h) := by
  have hpop := State.pop_eq_some.mpr ⟨h, rfl, rfl⟩
  simp only [exec, execRet, hpop]
  rfl

/-- A RET on the empty stack traps (R141, R233). -/
theorem exec_ret_of_empty {s : State} (h : s.sp.val = 0) : exec .ret s = .fault .stackUnderflow := by
  have hpop := State.pop_eq_none.mpr h
  simp only [exec, execRet, hpop]
  rfl

/-- The frame of a RET: the stack, the popped entry among it, and all but pc and SP stay. -/
theorem returned_onlyChanges (s : State) (h : 0 < s.sp.val) : OnlyChanges [.pc, .sp] s (s.returned h) :=
  onlyChanges_of_eq_withParts rfl

/-- Settles O20, by whether the stack is empty. -/
theorem returnPopsTheStack : Obligations.ReturnPopsTheStack := by
  unfold Obligations.ReturnPopsTheStack
  refine ⟨decodeWord_ret, fun s => ⟨exec_ret_of_empty, fun n hn hsp => ?_⟩⟩
  have pos : 0 < s.sp.val := by omega
  have top : s.sp.val - 1 = n := by omega
  refine ⟨s.returned pos, exec_ret_of_pos pos, ?_, top, returned_onlyChanges s pos⟩
  simp only [State.returned, top]

/-- Settles O26: the CALL pushes one entry, and the RET pops it. -/
theorem callThenReturnComesBack : Obligations.CallThenReturnComesBack := by
  unfold Obligations.CallThenReturnComesBack
  intro nnn s t u hcall hsp hstk
  have room : s.sp.val < 16 := by
    by_contra full
    rw [exec_call_of_full nnn (by omega)] at hcall
    cases hcall
  rw [exec_call_of_lt nnn room] at hcall
  cases hcall
  have depth : u.sp.val = s.sp.val + 1 := by rw [hsp]; rfl
  have pos : 0 < u.sp.val := by omega
  refine ⟨u.returned pos, exec_ret_of_pos pos, ?_, Fin.ext ?_⟩
  · simp only [State.returned, depth, hstk]
    exact called_stk_top s nnn room
  · simp only [State.returned, depth]
    rfl

/-! ## What an instruction can answer -/

/-- EVERYTHING AN INSTRUCTION CAN ANSWER: the next state, or the trap of a CALL on the full stack or of a RET on the empty
one (R232, R233). -/
theorem exec_cases (i : Instr) (s : State) :
    (∃ t, exec i s = .next t) ∨
    ((∃ nnn, i = .call nnn) ∧ s.sp.val = 16 ∧ exec i s = .fault .stackOverflow) ∨
    (i = .ret ∧ s.sp.val = 0 ∧ exec i s = .fault .stackUnderflow) := by
  cases i with
  | ret =>
    by_cases h : 0 < s.sp.val
    · exact .inl ⟨_, exec_ret_of_pos h⟩
    · have empty : s.sp.val = 0 := by omega
      exact .inr (.inr ⟨rfl, empty, exec_ret_of_empty empty⟩)
  | call nnn =>
    by_cases h : s.sp.val < 16
    · exact .inl ⟨_, exec_call_of_lt nnn h⟩
    · have full : s.sp.val = 16 := by omega
      exact .inr (.inl ⟨⟨nnn, rfl⟩, full, exec_call_of_full nnn full⟩)
  | ldVxK x =>
    cases h : s.lowestKey with
    | none => exact .inl ⟨_, exec_ldVxK_of_none x h⟩
    | some k => exact .inl ⟨_, exec_ldVxK_of_some x h⟩
  | _ => exact .inl ⟨_, rfl⟩

/-- The traps of an instruction. -/
theorem exec_eq_fault {i : Instr} {s : State} {k : Fault} : exec i s = .fault k ↔
    (k = .stackOverflow ∧ (∃ nnn, i = .call nnn) ∧ s.sp.val = 16) ∨
    (k = .stackUnderflow ∧ i = .ret ∧ s.sp.val = 0) := by
  constructor
  · intro h
    rcases exec_cases i s with ⟨t, ht⟩ | ⟨hi, hsp, ht⟩ | ⟨hi, hsp, ht⟩ <;> rw [h] at ht <;> cases ht
    · exact .inl ⟨rfl, hi, hsp⟩
    · exact .inr ⟨rfl, hi, hsp⟩
  · rintro (⟨rfl, ⟨nnn, rfl⟩, hsp⟩ | ⟨rfl, rfl, hsp⟩)
    · exact exec_call_of_full nnn hsp
    · exact exec_ret_of_empty hsp

/-- The traps of a step: those of the fetch and of the decoder, and those of the instruction. -/
theorem step_eq_fault {s : State} {k : Fault} : step s = .fault k ↔
    fetchInstr s = .error k ∨ ∃ i, fetchInstr s = .ok i ∧ exec i (s.setDf false) = .fault k := by
  cases hf : fetchInstr s with
  | ok i => simp [step_of_ok hf]
  | error j => simp [step_of_error hf]

theorem exec_ne_refused (i : Instr) (s : State) (r : Refusal) : exec i s ≠ .refused r := by
  intro h
  rcases exec_cases i s with ⟨_, ht⟩ | ⟨-, -, ht⟩ | ⟨-, -, ht⟩ <;> rw [h] at ht <;> cases ht

theorem step_ne_refused (s : State) (r : Refusal) : step s ≠ .refused r := by
  rcases step_cases s with ⟨i, -, hs⟩ | ⟨k, -, hs⟩ <;> rw [hs]
  · exact exec_ne_refused i _ r
  · nofun

/-- Settles O10. -/
theorem noStepIsRefused : Obligations.NoStepIsRefused := by
  unfold Obligations.NoStepIsRefused
  exact fun s r => ⟨step_ne_refused s r, fun i => exec_ne_refused i s r⟩

/-! ## The fetched word as the statements write it -/

/-- The bytes of a word, the first the high one, as a number (R68). -/
theorem opcodeOf_eq_ofNat (hi lo : Byte) : opcodeOf hi lo = BitVec.ofNat 16 (256 * hi.toNat + lo.toNat) := by
  apply BitVec.eq_of_toNat_eq
  rw [opcodeOf_toNat, BitVec.toNat_ofNat]
  omega

/-- Below 4096 a masked read is the plain one (R66). -/
theorem memRead_of_lt {s : State} {a : Nat} (h : a < 4096) : s.memRead a = s.mem.read a := by
  rw [State.memRead, Nat.mod_eq_of_lt h]

/-- The big-endian word of the two bytes at pc (R68, R122). -/
theorem fetch_eq_word {s : State} (h : s.pc.toNat + 1 < 4096) : fetch s =
    .ok (BitVec.ofNat 16 (256 * (s.memRead s.pc.toNat).toNat + (s.memRead (s.pc.toNat + 1)).toNat)) := by
  rw [fetch_of_lt h, opcodeOf_eq_ofNat, memRead_of_lt h, memRead_of_lt (Nat.lt_of_succ_lt h)]

/-- Settles O7: the fetched word decodes, and the step runs what it decodes to. -/
theorem stepRunsTheDecodedInstruction : Obligations.StepRunsTheDecodedInstruction := by
  unfold Obligations.StepRunsTheDecodedInstruction
  intro s i hpc hi
  exact step_of_ok (fetchInstr_eq_ok.mpr ⟨_, fetch_eq_word hpc, hi⟩)

/-! ## The traps of a step -/

/-- The fetch check traps before the decode check (R234, R238). -/
theorem fetchInstr_eq_memoryOutOfRange {s : State} :
    fetchInstr s = .error .memoryOutOfRange ↔ s.pc.toNat + 1 ≥ 4096 := by
  simp [fetchInstr_eq_error]

/-- A word is no instruction exactly when it is rejected under some name. -/
theorem decodeWord_ne_ok {op : Word} : (∀ i, decodeWord op ≠ .ok i) ↔ ∃ e, decodeWord op = .error e := by
  cases decodeWord op <;> simp

/-- The decode check traps on a fetched word that is no instruction (R231). -/
theorem fetchInstr_eq_invalidOpcode {s : State} : fetchInstr s = .error .invalidOpcode ↔ s.pc.toNat + 1 < 4096 ∧
    ∀ i, decodeWord (BitVec.ofNat 16 (256 * (s.memRead s.pc.toNat).toNat + (s.memRead (s.pc.toNat + 1)).toNat)) ≠
      .ok i := by
  rw [fetchInstr_eq_error, decodeWord_ne_ok]
  by_cases h : s.pc.toNat + 1 < 4096
  · simp [fetch_eq_word h, h]
  · simp [fetch_of_ge (Nat.not_lt.mp h), h]

theorem fetchInstr_ne_overflow (s : State) : fetchInstr s ≠ .error .stackOverflow := by
  simp [fetchInstr_eq_error]

theorem fetchInstr_ne_underflow (s : State) : fetchInstr s ≠ .error .stackUnderflow := by
  simp [fetchInstr_eq_error]

/-- Settles O8: the first two traps are those of the fetch and of the decoder, the other two those of the instruction. -/
theorem stepTrapsExactlyWhenListed : Obligations.StepTrapsExactlyWhenListed := by
  unfold Obligations.StepTrapsExactlyWhenListed
  intro s
  simp only [step_eq_fault, exec_eq_fault, fetchInstr_eq_memoryOutOfRange, fetchInstr_eq_invalidOpcode,
    fetchInstr_ne_overflow, fetchInstr_ne_underflow, State.setDf_sp]
  exact ⟨by simp, by simp, by simp, by simp⟩

/-! ## After a trap (R131, R237) -/

/-- A step begins by clearing DF (R121), so what DF was before is not seen. -/
theorem step_setDf (s : State) (b : Bool) : step (s.setDf b) = step s := rfl

/-- A step that traps clears DF and answers its kind (R131). -/
theorem perform_step_eq_trapped {s t : State} {k : Fault} (h : perform .step s = (t, .trapped k)) :
    step s = .fault k ∧ t = s.setDf false := by
  rcases s.stepOp_cases with ⟨u, -, hop⟩ | ⟨j, hstep, hop⟩ | ⟨r, -, hop⟩
  · cases hop.symm.trans h
  · cases hop.symm.trans h
    exact ⟨hstep, rfl⟩
  · cases hop.symm.trans h

theorem perform_step_of_fault {s : State} {k : Fault} (h : step s = .fault k) :
    perform .step s = (s.setDf false, .trapped k) := by
  simp only [perform, State.stepOp, h, State.trapped_eq]

/-- Settles O9: the trap clears DF, which the next step does not look at, so it traps in the same way. -/
theorem trapLeavesAllButTheDrawFlag : Obligations.TrapLeavesAllButTheDrawFlag := by
  unfold Obligations.TrapLeavesAllButTheDrawFlag
  intro s t k h
  obtain ⟨hstep, rfl⟩ := perform_step_eq_trapped h
  have again : step (s.setDf false) = .fault k := by rw [step_setDf, hstep]
  exact ⟨rfl, perform_step_of_fault again⟩

end Sys2Proof.Machine

/-! PROOFS. The conditional skips (41_control_flow.md) and the jump of a program to itself. -/

namespace Sys2Proof.Machine

theorem exec_seImm (x : Reg) (kk : Byte) (s : State) :
    exec (.seImm x kk) s = .next (s.setPc (if s.getV x == kk then s.pc + 4 else s.pc + 2)) :=
  skipIf_eq _ s

theorem exec_sneImm (x : Reg) (kk : Byte) (s : State) :
    exec (.sneImm x kk) s = .next (s.setPc (if s.getV x != kk then s.pc + 4 else s.pc + 2)) :=
  skipIf_eq _ s

theorem exec_seReg (x y : Reg) (s : State) :
    exec (.seReg x y) s = .next (s.setPc (if s.getV x == s.getV y then s.pc + 4 else s.pc + 2)) :=
  skipIf_eq _ s

theorem exec_sneReg (x y : Reg) (s : State) :
    exec (.sneReg x y) s = .next (s.setPc (if s.getV x != s.getV y then s.pc + 4 else s.pc + 2)) :=
  skipIf_eq _ s

/-- A skip on equality, as the statements write its condition. -/
theorem skip_eq (a b : Byte) (p q : Word) : (if a == b then p else q) = if a = b then p else q := by
  simp only [beq_iff_eq]

/-- A skip on inequality, as the statements write its condition. -/
theorem skip_ne (a b : Byte) (p q : Word) : (if a != b then p else q) = if a = b then q else p := by
  simp only [bne_iff_ne, ite_not]

theorem decodeWord_seReg (x y : Reg) :
    decodeWord (BitVec.ofNat 16 (0x5000 + x.val * 256 + y.val * 16)) = .ok (.seReg x y) :=
  decodeWord_nibbles_seReg x y

theorem decodeWord_sneReg (x y : Reg) :
    decodeWord (BitVec.ofNat 16 (0x9000 + x.val * 256 + y.val * 16)) = .ok (.sneReg x y) :=
  decodeWord_nibbles_sneReg x y

/-- Settles O24: both skips write pc alone. -/
theorem skipsOnAnImmediate : Obligations.SkipsOnAnImmediate := by
  unfold Obligations.SkipsOnAnImmediate
  intro x kk
  refine ⟨decodeWord_formatXK_seImm x kk, decodeWord_formatXK_sneImm x kk, fun s => ⟨?_, ?_⟩⟩
  · exact ⟨_, exec_seImm x kk s, skip_eq _ _ _ _, setPc_onlyChanges s _⟩
  · exact ⟨_, exec_sneImm x kk s, skip_ne _ _ _ _, setPc_onlyChanges s _⟩

/-- Settles O25: both skips write pc alone. -/
theorem skipsOnTwoRegisters : Obligations.SkipsOnTwoRegisters := by
  unfold Obligations.SkipsOnTwoRegisters
  intro x y
  refine ⟨decodeWord_seReg x y, decodeWord_sneReg x y, fun s => ⟨?_, ?_⟩⟩
  · exact ⟨_, exec_seReg x y s, skip_eq _ _ _ _, setPc_onlyChanges s _⟩
  · exact ⟨_, exec_sneReg x y s, skip_ne _ _ _ _, setPc_onlyChanges s _⟩

/-- Settles O18: the JP writes to pc the value it has. -/
theorem jumpToSelfChangesOnlyTheDrawFlag : Obligations.JumpToSelfChangesOnlyTheDrawFlag := by
  unfold Obligations.JumpToSelfChangesOnlyTheDrawFlag
  intro s nnn hi htarget
  have stays : zext nnn = s.pc := by
    apply BitVec.eq_of_toNat_eq
    rw [zext_toNat, htarget]
  rw [step_of_ok hi, exec_jp, stays]
  rfl

end Sys2Proof.Machine

/-! PROOFS. What a completed instruction leaves in pc, in the stack, in memory, in DF and in the registers: the facts behind
the invariants of R45 and the table of reads and writes (R21). -/

namespace Sys2Proof.Machine

/-! ## The instructions with a branch -/

theorem exec_ret_eq_next {s t : State} (h : exec .ret s = .next t) : ∃ pos, t = s.returned pos := by
  by_cases pos : 0 < s.sp.val
  · rw [exec_ret_of_pos pos] at h
    cases h
    exact ⟨pos, rfl⟩
  · rw [exec_ret_of_empty (by omega)] at h
    cases h

theorem exec_call_eq_next {nnn : Addr} {s t : State} (h : exec (.call nnn) s = .next t) :
    ∃ room, t = s.called nnn room := by
  by_cases room : s.sp.val < 16
  · rw [exec_call_of_lt nnn room] at h
    cases h
    exact ⟨room, rfl⟩
  · rw [exec_call_of_full nnn (by omega)] at h
    cases h

theorem exec_ldVxK_eq_next {x : Reg} {s t : State} (h : exec (.ldVxK x) s = .next t) :
    t = s ∨ ∃ b, t = s.withResult x b := by
  cases hk : s.lowestKey with
  | none =>
    rw [exec_ldVxK_of_none x hk] at h
    cases h
    exact .inl rfl
  | some k =>
    rw [exec_ldVxK_of_some x hk] at h
    cases h
    exact .inr ⟨_, rfl⟩

/-- A skip writes pc alone, to the next instruction or to the one after it (R126). -/
theorem skipIf_eq_next {c : Bool} {s t : State} (h : skipIf c s = .next t) :
    t = s.setPc (s.pc + 2) ∨ t = s.setPc (s.pc + 4) := by
  rw [skipIf_eq] at h
  cases h
  cases c
  · exact .inl rfl
  · exact .inr rfl

theorem exec_ldMemVx_eq_next {x : Reg} {s t : State} (h : exec (.ldMemVx x) s = .next t) : t = s.withStoredRegs x := by
  rw [exec_ldMemVx] at h
  cases h
  rfl

theorem exec_ldVxMem_eq_next {x : Reg} {s t : State} (h : exec (.ldVxMem x) s = .next t) : t = s.withLoadedRegs x := by
  rw [exec_ldVxMem] at h
  cases h
  rfl

/-! ## pc (R126, R140) -/

theorem word_add_two (w : Word) : (w + 2).toNat = (w.toNat + 2) % 65536 := BitVec.toNat_add w 2

theorem word_add_four (w : Word) : (w + 4).toNat = (w.toNat + 4) % 65536 := BitVec.toNat_add w 4

/-- The instructions that write an absolute target to pc. -/
def Jumps (i : Instr) : Prop := ∃ nnn, i = .jp nnn ∨ i = .call nnn ∨ i = .jpV0 nnn

/-- EVERYTHING A COMPLETED INSTRUCTION DOES TO pc: it stays or goes on by 2 or 4, or is a target below 4096, or the popped
entry. -/
theorem exec_pc {i : Instr} {s t : State} (h : exec i s = .next t) :
    (t.pc = s.pc ∨ t.pc = s.pc + 2 ∨ t.pc = s.pc + 4) ∨
    (Jumps i ∧ t.pc.toNat < 4096) ∨
    (i = .ret ∧ ∃ k : Fin 16, t.pc = s.stk[k]) := by
  cases i with
  | jp nnn =>
    cases h
    exact .inr (.inl ⟨⟨nnn, .inl rfl⟩, (zext_toNat nnn).trans_lt nnn.isLt⟩)
  | call nnn =>
    obtain ⟨room, rfl⟩ := exec_call_eq_next h
    exact .inr (.inl ⟨⟨nnn, .inr (.inl rfl)⟩, (zext_toNat nnn).trans_lt nnn.isLt⟩)
  | jpV0 nnn =>
    cases h
    exact .inr (.inl ⟨⟨nnn, .inr (.inr rfl)⟩, (offsetTarget_toNat nnn _).trans_lt (Nat.mod_lt _ (by decide))⟩)
  | ret =>
    obtain ⟨pos, rfl⟩ := exec_ret_eq_next h
    exact .inr (.inr ⟨rfl, ⟨s.sp.val - 1, by omega⟩, rfl⟩)
  | seImm | sneImm | seReg | sneReg | skp | sknp =>
    rcases skipIf_eq_next h with rfl | rfl
    · exact .inl (.inr (.inl rfl))
    · exact .inl (.inr (.inr rfl))
  | ldVxK x =>
    rcases exec_ldVxK_eq_next h with rfl | ⟨b, rfl⟩
    · exact .inl (.inl rfl)
    · exact .inl (.inr (.inl rfl))
  | ldMemVx x =>
    obtain rfl := exec_ldMemVx_eq_next h
    exact .inl (.inr (.inl (withStoredRegs_frame s x).1))
  | ldVxMem x =>
    obtain rfl := exec_ldVxMem_eq_next h
    exact .inl (.inr (.inl (withLoadedRegs_frame s x).1))
  | _ =>
    cases h
    exact .inl (.inr (.inl rfl))

/-! ## The stack and memory -/

/-- A stack entry other than the pushed one stays (R28, R29). -/
theorem exec_stk {i : Instr} {s t : State} (h : exec i s = .next t) {k : Fin 16} (hk : k.val ∉ pushedAt i s) :
    t.stk[k] = s.stk[k] := by
  cases i with
  | call nnn =>
    obtain ⟨room, rfl⟩ := exec_call_eq_next h
    exact called_stk_other s nnn room (by simpa using hk)
  | _ => exact exec_onlyChanges h .stk (by simp [mayChange]) k

/-- A byte at no address stored to reads as before (R66, R221, R222). -/
theorem exec_memRead {i : Instr} {s t : State} (h : exec i s = .next t) (wf : s.mem.wf) {a : Nat}
    (ha : a % 4096 ∉ storedTo i s) : t.memRead a = s.memRead a := by
  cases i with
  | ldBVx x =>
    cases h
    refine storeDigits_memRead_other wf _ fun k hk he => ha ?_
    rw [mem_storedTo_ldBVx, he]
    interval_cases k <;> simp
  | ldMemVx x =>
    obtain rfl := exec_ldMemVx_eq_next h
    refine State.storeRegs_memRead_other _ a s wf fun r hr he => ha ?_
    exact mem_storedTo_ldMemVx.mpr ⟨r, mem_regsUpTo.mp hr, he.symm⟩
  | _ => exact exec_onlyChanges h .mem (by simp [mayChange]) a

/-- Every instruction keeps the canonical form of memory (R66). -/
theorem exec_mem_wf {i : Instr} {s t : State} (h : exec i s = .next t) (wf : s.mem.wf) : t.mem.wf := by
  cases i with
  | ldBVx x =>
    cases h
    obtain ⟨m, hm, he⟩ := s.storeDigits_frame (bcdDigits (s.getV x))
    rw [State.setPc_mem, he]
    exact hm wf
  | ldMemVx x =>
    obtain rfl := exec_ldMemVx_eq_next h
    obtain ⟨m, hm, he⟩ := s.storeRegs_frame (regsUpTo x)
    rw [State.withStoredRegs, State.setPc_mem, he]
    exact hm wf
  | _ =>
    rw [exec_eq_withParts h]
    exact wf

/-! ## DF (R34, R121) -/

/-- The instructions that draw. -/
abbrev Draws (i : Instr) : Prop := i = .cls ∨ ∃ x y n, i = .drw x y n

/-- Those that draw set DF (R34). -/
theorem exec_df_of_draws {i : Instr} {s t : State} (h : exec i s = .next t) (hi : Draws i) : t.df = true := by
  rcases hi with rfl | ⟨x, y, n, rfl⟩ <;> cases h <;> rfl

/-- The others leave DF alone (R34). -/
theorem exec_df_of_not_draws {i : Instr} {s t : State} (h : exec i s = .next t) (hi : ¬ Draws i) :
    t.df = s.df := by
  cases i with
  | cls => exact absurd (.inl rfl) hi
  | drw x y n => exact absurd (.inr ⟨x, y, n, rfl⟩) hi
  | ret => obtain ⟨pos, rfl⟩ := exec_ret_eq_next h; rfl
  | call nnn => obtain ⟨room, rfl⟩ := exec_call_eq_next h; rfl
  | ldVxK x => rcases exec_ldVxK_eq_next h with rfl | ⟨b, rfl⟩ <;> rfl
  | ldMemVx x => rw [exec_ldMemVx_eq_next h]; exact (withStoredRegs_frame s x).2 .df (by simp)
  | ldVxMem x => rw [exec_ldVxMem_eq_next h]; exact (withLoadedRegs_frame s x).2 .df (by simp)
  | seImm | sneImm | seReg | sneReg | skp | sknp => rcases skipIf_eq_next h with rfl | rfl <;> rfl
  | _ => cases h; rfl

/-! ## The registers (R21) -/

/-- A register that the instruction's row does not name as written stays (R21). -/
theorem exec_getV {i : Instr} {s t : State} (h : exec i s = .next t) {r : Reg} (hr : r ∉ writesRegs i) :
    t.getV r = s.getV r := by
  cases i with
  | ldImm | addImm | ldReg | orReg | andReg | xorReg | rnd | ldVxDT | drw =>
    cases h
    exact State.setV_getV_ne _ _ (by simpa [writesRegs] using hr)
  | addReg x y | subReg x y | shr x y | subnReg x y | shl x y =>
    cases h
    obtain ⟨hx, hvf⟩ : r ≠ x ∧ r ≠ vf := by simpa [writesRegs] using hr
    exact (withResultFlag_frame s x _).1 r hx hvf
  | ldVxMem x =>
    have above : ¬ r ≤ x := by simpa [writesRegs] using hr
    rw [exec_ldVxMem_eq_next h, withLoadedRegs_getV, if_neg above]
  | ldVxK x =>
    rcases exec_ldVxK_eq_next h with rfl | ⟨b, rfl⟩
    · rfl
    · exact State.setV_getV_ne _ _ (by simpa [writesRegs] using hr)
  | ret => obtain ⟨pos, rfl⟩ := exec_ret_eq_next h; rfl
  | call nnn => obtain ⟨room, rfl⟩ := exec_call_eq_next h; rfl
  | ldMemVx x => rw [exec_ldMemVx_eq_next h]; exact (withStoredRegs_frame s x).2 .v (by simp) r
  | seImm | sneImm | seReg | sneReg | skp | sknp => rcases skipIf_eq_next h with rfl | rfl <;> rfl
  | _ => cases h; rfl

/-! ## Steps -/

/-- A step that ran `i` is `i` in the state with DF cleared. -/
theorem exec_of_step {i : Instr} {s t : State} (hi : fetchInstr s = .ok i) (h : step s = .next t) :
    exec i (s.setDf false) = .next t := by
  rwa [step_of_ok hi] at h

/-- An instruction is fetched only below pc = 0xFFF (R122). -/
theorem pc_lt_of_fetchInstr {i : Instr} {s : State} (hi : fetchInstr s = .ok i) : s.pc.toNat + 1 < 4096 := by
  obtain ⟨op, hop, -⟩ := fetchInstr_eq_ok.mp hi
  exact (fetch_eq_ok.mp hop).1

/-- Settles O14: DF is false when the instruction starts, and those that draw are the ones that write it. -/
theorem drawFlagTellsThatTheStepDrew : Obligations.DrawFlagTellsThatTheStepDrew := by
  unfold Obligations.DrawFlagTellsThatTheStepDrew
  intro s t i hi h
  have hexec := exec_of_step hi h
  refine ⟨fun hdf => ?_, exec_df_of_draws hexec⟩
  by_contra quiet
  rw [exec_df_of_not_draws hexec quiet] at hdf
  cases hdf

/-- Settles O15: the registers, the bytes and the stack entries of the instruction that ran, and the frame of the step. -/
theorem stepWritesOnlyWhatItsInstructionNames : Obligations.StepWritesOnlyWhatItsInstructionNames := by
  unfold Obligations.StepWritesOnlyWhatItsInstructionNames
  intro s t i hi h
  have hexec := exec_of_step hi h
  refine ⟨fun r hr => exec_getV hexec hr, fun wf a ha => ?_, fun k hk => ?_, step_onlyChanges hi h⟩
  · exact exec_memRead hexec wf (by rwa [← State.beginStep_eq, storedTo_beginStep])
  · exact exec_stk hexec (by rwa [← State.beginStep_eq, pushedAt_beginStep])

/-- Settles O17: but for the jumps and RET, pc goes on by 0, 2 or 4, and the wrap at 16 bits is even too. -/
theorem pcStaysEvenButForJumps : Obligations.PcStaysEvenButForJumps := by
  unfold Obligations.PcStaysEvenButForJumps
  intro s t i hi h even notRet notJump
  rcases exec_pc (exec_of_step hi h) with hpc | ⟨⟨nnn, hjump⟩, -⟩ | ⟨hret, -⟩
  · simp only [State.setDf_pc] at hpc
    rcases hpc with hpc | hpc | hpc
    · rwa [hpc]
    · rw [hpc, word_add_two]; omega
    · rw [hpc, word_add_four]; omega
  · obtain ⟨h1, h2, h3⟩ := notJump nnn
    rcases hjump with hjump | hjump | hjump
    · exact absurd hjump h1
    · exact absurd hjump h2
    · exact absurd hjump h3
  · exact absurd hret notRet

/-- Settles O19: pc + 2 and pc + 3 are the addresses of V0 and V1, and the next fetch reads them. -/
theorem storeIsSeenByTheNextFetch : Obligations.StoreIsSeenByTheNextFetch := by
  unfold Obligations.StoreIsSeenByTheNextFetch
  intro s t x wf hx hpc hI h
  obtain rfl := exec_ldMemVx_eq_next h
  have next : (s.withStoredRegs x).pc.toNat = s.pc.toNat + 2 := by
    rw [(withStoredRegs_frame s x).1, word_add_two]
    omega
  have stored (r : Reg) (hr : r ≤ x) (a : Nat) (ha : a = s.ea r.val) : (s.withStoredRegs x).memRead a = s.getV r := by
    rw [ha]
    exact State.storeRegs_memRead _ s wf (mem_regsUpTo.mpr hr)
  have high : (s.withStoredRegs x).memRead (s.pc.toNat + 2) = s.getV 0 :=
    stored 0 (Fin.zero_le x) _ (by rw [ea_eq, hI]; simp; omega)
  have low : (s.withStoredRegs x).memRead (s.pc.toNat + 2 + 1) = s.getV 1 :=
    stored 1 hx _ (by rw [ea_eq, hI]; simp; omega)
  rw [fetch_eq_word (by rw [next]; omega), next, high, low]

end Sys2Proof.Machine

/-! PROOFS. The invariants of R45: the reset state has them, every step keeps them, and so does every other operation of the
interface (R7). -/

namespace Sys2Proof.Machine

/-! ## A step -/

/-- pc is at most 0xFFE where an instruction is fetched, a target is below 4096, and a popped entry is at most 0x1000. -/
theorem exec_pc_le {i : Instr} {s t : State} (h : exec i s = .next t) (hpc : s.pc.toNat + 1 < 4096)
    (hstk : ∀ k : Fin 16, s.stk[k].toNat ≤ 0x1000) : t.pc.toNat ≤ 0x1002 := by
  rcases exec_pc h with (hp | hp | hp) | ⟨-, hp⟩ | ⟨-, k, hp⟩
  · rw [hp]; omega
  · rw [hp, word_add_two]; omega
  · rw [hp, word_add_four]; omega
  · omega
  · have := hstk k
    rw [hp]; omega

/-- The one entry written is a CALL's, pc + 2. -/
theorem exec_stk_le {i : Instr} {s t : State} (h : exec i s = .next t) (hpc : s.pc.toNat + 1 < 4096)
    (hstk : ∀ k : Fin 16, s.stk[k].toNat ≤ 0x1000) (k : Fin 16) : t.stk[k].toNat ≤ 0x1000 := by
  by_cases hk : k.val ∈ pushedAt i s
  · cases i with
    | call nnn =>
      obtain ⟨room, rfl⟩ := exec_call_eq_next h
      obtain rfl : k = ⟨s.sp.val, room⟩ := Fin.ext (by simpa using hk)
      have top : (s.called nnn room).stk[(⟨s.sp.val, room⟩ : Fin 16)] = s.pc + 2 := called_stk_top s nnn room
      rw [top, word_add_two]
      omega
    | _ => simp [pushedAt] at hk
  · rw [exec_stk h hk]
    exact hstk k

theorem step_inv {s t : State} (hinv : s.Inv) (h : step s = .next t) : t.Inv := by
  obtain ⟨i, hi⟩ := fetchInstr_of_step_eq_next h
  have hexec := exec_of_step hi h
  have hpc := pc_lt_of_fetchInstr hi
  exact ⟨exec_mem_wf hexec hinv.mem, exec_pc_le hexec hpc hinv.stk, exec_stk_le hexec hpc hinv.stk⟩

/-- Settles O11. -/
theorem stepKeepsTheInvariants : Obligations.StepKeepsTheInvariants := by
  unfold Obligations.StepKeepsTheInvariants
  intro s t hinv h
  exact step_inv hinv h

/-! ## The other operations -/

/-- The invariants speak of memory, pc and the stack alone. -/
theorem inv_of_same {s t : State} (hinv : s.Inv) (hmem : t.mem = s.mem) (hpc : t.pc = s.pc) (hstk : t.stk = s.stk) :
    t.Inv :=
  ⟨hmem ▸ hinv.mem, hpc ▸ hinv.pc, hstk ▸ hinv.stk⟩

/-- Reset memory lists nothing, pc is 0x200 and every stack entry is 0 (R44). -/
theorem resetOp_inv (s : State) : s.resetOp.Inv := by
  have pc : s.resetOp.pc = 0x200 := rfl
  refine ⟨State.reset_mem_wf, by rw [pc]; decide, fun k => ?_⟩
  rw [resetOp_stk]
  decide

theorem loadRom_inv {s : State} (hinv : s.Inv) (bytes : List Byte) : (s.loadRom bytes).1.Inv := by
  rcases s.loadRom_cases bytes with ⟨-, hload⟩ | ⟨hlen, hload⟩ <;> rw [hload]
  · exact hinv
  · exact ⟨Memory.writeBytes_wf hinv.mem (by simp; omega), hinv.pc, hinv.stk⟩

/-- A trap only clears DF (R131). -/
theorem stepOp_inv {s : State} (hinv : s.Inv) : s.stepOp.1.Inv := by
  rcases s.stepOp_cases with ⟨t, hstep, hop⟩ | ⟨k, -, hop⟩ | ⟨r, -, hop⟩ <;> rw [hop]
  · exact step_inv hinv hstep
  · exact inv_of_same hinv rfl rfl rfl
  · exact hinv

theorem perform_inv (op : HostOp) {s : State} (hinv : s.Inv) : (perform op s).1.Inv := by
  cases op with
  | reset => exact resetOp_inv s
  | loadRom bytes => exact loadRom_inv hinv bytes
  | step => exact stepOp_inv hinv
  | _ => exact inv_of_same hinv rfl rfl rfl

/-- Settles O59, one operation after another. -/
theorem everyOperationKeepsTheInvariants : Obligations.EveryOperationKeepsTheInvariants := by
  unfold Obligations.EveryOperationKeepsTheInvariants
  intro op s hinv
  exact perform_inv op hinv

/-- Settles O12: construction leaves what a reset leaves. -/
theorem resetHasTheInvariants : Obligations.ResetHasTheInvariants := by
  unfold Obligations.ResetHasTheInvariants
  exact resetOp_inv State.reset

/-- Settles O13, by the induction over reachable states. -/
theorem reachableStatesHaveTheInvariants : Obligations.ReachableStatesHaveTheInvariants := by
  unfold Obligations.ReachableStatesHaveTheInvariants
  intro s hreach
  exact hreach.induct (resetOp_inv State.reset) fun op _ hinv => perform_inv op hinv

end Sys2Proof.Machine

/-! PROOFS. Drawing a sprite (44_display.md, Dxyn): the plane after it pixel by pixel, the collision flag in VF, and what a
second draw at the same origin does. -/

namespace Sys2Proof.Machine

/-! ## The state after a draw (R192) -/

/-- The state after a DRW of `n` rows. -/
def State.drawn (s : State) (x y : Reg) (n : Nat) : State := (s.showSprite (s.drawSprite x y n)).setPc (s.pc + 2)

theorem exec_drw (x y : Reg) (n : Fin 16) (s : State) : exec (.drw x y n) s = .next (s.drawn x y n.val) := rfl

theorem drawn_fb (s : State) (x y : Reg) (n : Nat) : (s.drawn x y n).fb = (s.drawSprite x y n).1 := rfl

theorem drawn_getV_vf (s : State) (x y : Reg) (n : Nat) : (s.drawn x y n).getV vf = flagBit (s.drawSprite x y n).2 :=
  State.setV_getV_same _ vf _

theorem drawn_getV_ne (s : State) (x y : Reg) (n : Nat) {r : Reg} (hr : r ≠ vf) : (s.drawn x y n).getV r = s.getV r :=
  State.setV_getV_ne _ _ hr

/-- The frame of a draw: the registers but VF, I, memory and all but V, the plane, DF and pc stay. -/
theorem drawn_frame (s : State) (x y : Reg) (n : Nat) : (s.drawn x y n).df = true ∧
    (∀ r, r ≠ vf → (s.drawn x y n).getV r = s.getV r) ∧ (s.drawn x y n).pc = s.pc + 2 ∧
      OnlyChanges [.v, .fb, .df, .pc] s (s.drawn x y n) :=
  ⟨rfl, fun _ hr => drawn_getV_ne s x y n hr, rfl, onlyChanges_of_eq_withParts rfl⟩

/-! ## The plane and the flag -/

/-- A pixel inside the plane is flipped exactly when a set sprite bit lies over it (R192). -/
theorem drawn_pixel (s : State) (x y : Reg) (n : Nat) {px py : Nat} (inside : px < 64 ∧ py < 32) :
    (s.drawn x y n).fb.pixel px py = (s.fb.pixel px py ^^
      spriteBit (s.spriteRows n) (originColumn (s.getV x)) (originRow (s.getV y)) px py) := by
  rw [drawn_fb, State.drawSprite, Framebuffer.blit, blitRows_pixel, decide_eq_true inside, Bool.true_and]

theorem drawn_pixel_of_covers {s : State} {x y : Reg} {n px py : Nat} (inside : px < 64 ∧ py < 32)
    (h : s.SpriteCovers x y n px py) : (s.drawn x y n).fb.pixel px py = !s.fb.pixel px py := by
  rw [drawn_pixel s x y n inside, spriteBit_spriteRows.mpr h, Bool.xor_true]

theorem drawn_pixel_of_not_covers {s : State} {x y : Reg} {n px py : Nat} (inside : px < 64 ∧ py < 32)
    (h : ¬ s.SpriteCovers x y n px py) : (s.drawn x y n).fb.pixel px py = s.fb.pixel px py := by
  rw [drawn_pixel s x y n inside, Bool.eq_false_iff.mpr (spriteBit_spriteRows.not.mpr h), Bool.xor_false]

/-- The blit reports a collision exactly when a visible set bit lies over a lit pixel (R195). -/
theorem drawSprite_hit {s : State} {x y : Reg} {n : Nat} :
    (s.drawSprite x y n).2 = true ↔ s.SpriteCollides x y n := by
  simp only [State.drawSprite, Framebuffer.blit, blitRows_hit, spriteBit_spriteRows, State.SpriteCollides]
  constructor
  · rintro (h | ⟨px, py, covers, lit⟩)
    · cases h
    · exact ⟨px, py, pixel_inside lit, covers, lit⟩
  · rintro ⟨px, py, -, covers, lit⟩
    exact .inr ⟨px, py, covers, lit⟩

theorem flagBit_eq_one {c : Bool} : flagBit c = 1 ↔ c = true := by
  cases c <;> decide

/-- VF after a draw tells whether it collided (R192). -/
theorem drawn_getV_vf_eq_one {s : State} {x y : Reg} {n : Nat} :
    (s.drawn x y n).getV vf = 1 ↔ s.SpriteCollides x y n := by
  rw [drawn_getV_vf, flagBit_eq_one, drawSprite_hit]

theorem drawn_getV_vf_eq_zero {s : State} {x y : Reg} {n : Nat} (h : ¬ s.SpriteCollides x y n) :
    (s.drawn x y n).getV vf = 0 := by
  rw [drawn_getV_vf, Bool.eq_false_iff.mpr (drawSprite_hit.not.mpr h)]
  rfl

theorem decodeWord_drw (x y : Reg) (n : Fin 16) :
    decodeWord (BitVec.ofNat 16 (0xD000 + x.val * 256 + y.val * 16 + n.val)) = .ok (.drw x y n) :=
  decodeWord_nibbles_drw x y n

/-- Settles O41: a pixel differs exactly when it is flipped, by whether a set sprite bit lies over it. -/
theorem drawFlipsTheVisibleSpriteBits : Obligations.DrawFlipsTheVisibleSpriteBits := by
  unfold Obligations.DrawFlipsTheVisibleSpriteBits
  intro x y n
  refine ⟨decodeWord_drw x y n, fun s => ⟨_, exec_drw x y n s, fun px py hx hy => ?_,
    drawn_getV_vf_eq_one.mpr, drawn_getV_vf_eq_zero, drawn_frame s x y n⟩⟩
  by_cases covers : s.SpriteCovers x y n px py
  · simp [drawn_pixel_of_covers ⟨hx, hy⟩ covers, covers]
  · simp [drawn_pixel_of_not_covers ⟨hx, hy⟩ covers, covers]

/-! ## A sprite without set bits -/

/-- A sprite of zero rows, or of none, covers no pixel. -/
theorem not_spriteCovers_of_zero {s : State} {n : Nat} (zero : ∀ r, r < n → s.memRead (s.i.toNat + r) = 0) (x y : Reg)
    (px py : Nat) : ¬ s.SpriteCovers x y n px py := by
  rintro ⟨-, ⟨top, bottom⟩, bit⟩
  rw [zero _ (by omega)] at bit
  simp at bit

/-- Settles O42: with no pixel covered none is flipped and none collides. -/
theorem drawOfNothingClearsVFOnly : Obligations.DrawOfNothingClearsVFOnly := by
  unfold Obligations.DrawOfNothingClearsVFOnly
  intro x y n s zero
  have uncovered := not_spriteCovers_of_zero zero x y
  have plane : (s.drawn x y n).fb = s.fb := Framebuffer.ext_pixel fun px py hx hy =>
    drawn_pixel_of_not_covers ⟨hx, hy⟩ (uncovered px py)
  have noHit : ¬ s.SpriteCollides x y n := fun ⟨px, py, _, covers, _⟩ => uncovered px py covers
  obtain ⟨df, regs, pc, only⟩ := drawn_frame s x y n
  refine ⟨_, exec_drw x y n s, plane, drawn_getV_vf_eq_zero noHit, df, regs, pc, fun p hp => ?_⟩
  by_cases hfb : p = .fb
  · subst hfb
    exact plane
  · exact only p (by simp_all)

/-! ## A second draw -/

/-- With the origin's registers other than VF, a draw moves neither the origin nor the sprite. -/
theorem drawn_spriteCovers {s : State} {x y : Reg} (hx : x ≠ vf) (hy : y ≠ vf) (n m px py : Nat) :
    (s.drawn x y m).SpriteCovers x y n px py ↔ s.SpriteCovers x y n px py := by
  simp only [State.SpriteCovers, drawn_getV_ne s x y m hx, drawn_getV_ne s x y m hy]
  rfl

/-- Two draws flip each covered pixel twice. -/
theorem drawn_drawn_fb {s : State} {x y : Reg} (hx : x ≠ vf) (hy : y ≠ vf) (n : Nat) :
    ((s.drawn x y n).drawn x y n).fb = s.fb := by
  apply Framebuffer.ext_pixel
  intro px py inx iny
  have same := drawn_spriteCovers hx hy n n px py (s := s)
  by_cases covers : s.SpriteCovers x y n px py
  · rw [drawn_pixel_of_covers ⟨inx, iny⟩ (same.mpr covers), drawn_pixel_of_covers ⟨inx, iny⟩ covers, Bool.not_not]
  · rw [drawn_pixel_of_not_covers ⟨inx, iny⟩ (same.not.mpr covers), drawn_pixel_of_not_covers ⟨inx, iny⟩ covers]

/-- The second draw collides where the first one lit a pixel, which was dark before it. -/
theorem drawn_spriteCollides {s : State} {x y : Reg} (hx : x ≠ vf) (hy : y ≠ vf) (n : Nat) :
    (s.drawn x y n).SpriteCollides x y n ↔
      ∃ px py, (px < 64 ∧ py < 32) ∧ s.SpriteCovers x y n px py ∧ s.fb.pixel px py = false := by
  have lit {px py : Nat} (inside : px < 64 ∧ py < 32) (covers : s.SpriteCovers x y n px py) :
      (s.drawn x y n).fb.pixel px py = true ↔ s.fb.pixel px py = false := by
    rw [drawn_pixel_of_covers inside covers, Bool.not_eq_true']
  simp only [State.SpriteCollides, drawn_spriteCovers hx hy]
  constructor
  · rintro ⟨px, py, inside, covers, hit⟩
    exact ⟨px, py, inside, covers, (lit inside covers).mp hit⟩
  · rintro ⟨px, py, inside, covers, dark⟩
    exact ⟨px, py, inside, covers, (lit inside covers).mpr dark⟩

/-- Settles O43: the second draw flips the same pixels again, and its flag is its collision. -/
theorem drawTwiceRestoresTheScreen : Obligations.DrawTwiceRestoresTheScreen := by
  unfold Obligations.DrawTwiceRestoresTheScreen
  intro x y n s t hx hy h
  rw [exec_drw] at h
  cases h
  refine ⟨_, exec_drw x y n _, drawn_drawn_fb hx hy n, ?_⟩
  rw [drawn_getV_vf_eq_one, drawn_spriteCollides hx hy]

/-! ## The flags of the six instructions that write VF (R161) -/

/-- Settles O35: what each of the six leaves in VF is a flag. -/
theorem flagsAreZeroOrOne : Obligations.FlagsAreZeroOrOne := by
  unfold Obligations.FlagsAreZeroOrOne
  intro x y n s t i hi h
  simp only [List.mem_cons, List.not_mem_nil, or_false] at hi
  have flag : ∃ c, t.getV vf = flagBit c := by
    rcases hi with rfl | rfl | rfl | rfl | rfl | rfl <;> cases h
    on_goal 6 => exact ⟨_, drawn_getV_vf s x y n⟩
    all_goals exact ⟨_, withResultFlag_getV_vf s x _⟩
  obtain ⟨c, hc⟩ := flag
  rw [hc]
  exact flagBit_le_one c

end Sys2Proof.Machine

/-! PROOFS. The instructions that load a register from their operand byte (R162) and from the random source (R183). -/

namespace Sys2Proof.Machine

theorem exec_ldImm (x : Reg) (kk : Byte) (s : State) : exec (.ldImm x kk) s = .next (s.withResult x kk) := rfl

/-- Settles O27: a result without a flag, the operand byte. -/
theorem loadImmediateSetsTheRegister : Obligations.LoadImmediateSetsTheRegister := by
  unfold Obligations.LoadImmediateSetsTheRegister
  intro x kk
  refine ⟨decodeWord_formatXK_ldImm x kk, fun s => ?_⟩
  exact ⟨_, exec_ldImm x kk s, withResult_getV_same s x kk, withResult_frame s x kk⟩

/-- The state after an RND: one draw taken, its byte under the mask in `V[x]` (R183). -/
def State.withDraw (s : State) (x : Reg) (kk : Byte) : State := (storeMasked x kk s.takeDraw).setPc (s.pc + 2)

theorem exec_rnd (x : Reg) (kk : Byte) (s : State) : exec (.rnd x kk) s = .next (s.withDraw x kk) := rfl

@[simp] theorem withDraw_getV_same (s : State) (x : Reg) (kk : Byte) :
    (s.withDraw x kk).getV x = Config.randU8 s.draws &&& kk :=
  State.setV_getV_same _ x _

/-- The frame of an RND: the other registers and all but V, the draw counter and pc stay. -/
theorem withDraw_frame (s : State) (x : Reg) (kk : Byte) :
    (∀ r, r ≠ x → (s.withDraw x kk).getV r = s.getV r) ∧ (s.withDraw x kk).draws = s.draws + 1 ∧
      (s.withDraw x kk).pc = s.pc + 2 ∧ OnlyChanges [.v, .draws, .pc] s (s.withDraw x kk) :=
  ⟨fun _ hr => State.setV_getV_ne _ _ hr, rfl, rfl, onlyChanges_of_eq_withParts rfl⟩

/-- Nothing of a masked byte is outside the mask. -/
theorem and_mask_and_not (b kk : Byte) : b &&& kk &&& ~~~kk = 0 := by
  rw [BitVec.and_assoc, BitVec.and_not_self]
  exact BitVec.and_zero

theorem and_mask_le (b kk : Byte) : (b &&& kk).toNat ≤ kk.toNat := by
  rw [BitVec.toNat_and]
  exact Nat.and_le_right

/-- Settles O39, whatever byte is drawn. -/
theorem randomByteIsMasked : Obligations.RandomByteIsMasked := by
  unfold Obligations.RandomByteIsMasked
  intro x kk
  refine ⟨decodeWord_formatXK_rnd x kk, fun s => ⟨_, exec_rnd x kk s, withDraw_getV_same s x kk, ?_, ?_,
    withDraw_frame s x kk⟩⟩
  · rw [withDraw_getV_same]
    exact and_mask_and_not _ kk
  · rw [withDraw_getV_same]
    exact and_mask_le _ kk

end Sys2Proof.Machine

/-! PROOFS. Memory as data (10_state.md section 9, log 9): the entries of a canonical memory are what it reads, so equal
reads are equal lists; and a load of stored registers. -/

namespace Sys2Proof.Machine

/-- In canonical form an entry is listed exactly when it is read and differs from the reset byte. -/
theorem Memory.mem_iff_read {m : Memory} (h : m.wf) {a : Nat} {b : Byte} :
    (a, b) ∈ m ↔ m.read a = b ∧ b ≠ Memory.resetByte a := by
  obtain ⟨entries, rising⟩ := h
  induction m with
  | nil =>
    simp only [List.not_mem_nil, Memory.read, false_iff, not_and, not_not]
    exact Eq.symm
  | cons e rest ih =>
    obtain ⟨k, c⟩ := e
    have ih := ih (fun d hd => entries d (by simp [hd])) rising.of_cons
    by_cases ha : a = k
    · subst ha
      have head : c ≠ Memory.resetByte a := (entries (a, c) (by simp)).2
      have fresh : (a, b) ∉ rest := fun hin => Nat.lt_irrefl a (List.rel_of_pairwise_cons rising hin)
      simp only [List.mem_cons, Prod.mk.injEq, true_and, fresh, or_false, Memory.read, if_true]
      constructor
      · rintro rfl
        exact ⟨rfl, head⟩
      · rintro ⟨rfl, -⟩
        rfl
    · simp [Memory.read, ha, ih]

/-- Settles O52: the two memories have the same entries in the same rising order. -/
theorem equalReadsAreEqualMemories : Obligations.EqualReadsAreEqualMemories := by
  unfold Obligations.EqualReadsAreEqualMemories
  intro m n hm hn same
  have subset {m n : Memory} (hm : m.wf) (hn : n.wf) (same : ∀ a, a < 4096 → m.read a = n.read a) (c : Host.Cell)
      (hc : c ∈ m) : c ∈ n := by
    obtain ⟨hread, hreset⟩ := (Memory.mem_iff_read hm).mp hc
    rw [same c.1 (hm.1 c hc).1] at hread
    exact (Memory.mem_iff_read hn).mpr ⟨hread, hreset⟩
  have irrefl : Std.Irrefl (fun c d : Host.Cell => c.1 < d.1) := ⟨fun c => Nat.lt_irrefl c.1⟩
  have antisymm : Std.Antisymm (fun c d : Host.Cell => c.1 < d.1) := ⟨fun c d h h' => absurd h' (Nat.lt_asymm h)⟩
  exact hm.2.eq_of_mem_iff hn.2 fun c =>
    ⟨subset hm hn same c, subset hn hm (fun a ha => (same a ha).symm) c⟩

/-- Settles O51: what the load reads at `EA(r)` is what the store put there. -/
theorem storeThenLoadRestoresTheRegisters : Obligations.StoreThenLoadRestoresTheRegisters := by
  unfold Obligations.StoreThenLoadRestoresTheRegisters
  intro x s t u wf h hI bytes
  obtain rfl := exec_ldMemVx_eq_next h
  refine ⟨_, exec_ldVxMem x u, fun r hr => ?_⟩
  have masked (v : State) : v.memRead (s.ea r.val) = v.memRead (s.i.toNat + r.val) := by
    simp only [State.memRead, ea_eq, Nat.mod_mod]
  calc (u.withLoadedRegs x).getV r
    _ = u.memRead (s.ea r.val) := by rw [withLoadedRegs_getV, if_pos hr, ea_eq, ea_eq, hI]
    _ = (s.withStoredRegs x).memRead (s.ea r.val) := by rw [masked, masked, bytes r hr]
    _ = s.getV r := State.storeRegs_memRead _ s wf (mem_regsUpTo.mpr hr)

end Sys2Proof.Machine

/-! PROOFS. The host's operations (60_exceptions.md section 6, 70_reset_and_hazards.md section 2): keys, observers, a loaded
ROM and its first instruction, and the model's own way to place a word. -/

namespace Sys2Proof.Machine

/-- Settles O53: one entry of the keypad is written. -/
theorem setKeyWritesOneKey : Obligations.SetKeyWritesOneKey := by
  unfold Obligations.SetKeyWritesOneKey
  intro k p s
  refine ⟨?_, fun j hj => ?_, onlyChanges_of_eq_withParts rfl⟩
  · exact (s.setKey_keys_get k k p).trans (if_pos rfl)
  · exact (s.setKey_keys_get k j p).trans (if_neg hj)

/-- Settles O54: each observer answers from its field and the state it was given. -/
theorem observersReportAndChangeNothing : Obligations.ObserversReportAndChangeNothing := by
  unfold Obligations.ObserversReportAndChangeNothing
  intro s
  exact ⟨rfl, rfl, rfl, rfl, onlyChanges_of_eq_withParts rfl⟩

/-! ## Loading a ROM (R275) -/

/-- The state after a load that was accepted. -/
def State.withRom (s : State) (bytes : List Byte) : State := { s with mem := s.mem.writeBytes 0x200 bytes }

theorem perform_loadRom_of_gt {bytes : List Byte} (h : 3584 < bytes.length) (s : State) :
    perform (.loadRom bytes) s = (s, .tooLarge) := if_pos h

theorem perform_loadRom_of_le {bytes : List Byte} (h : bytes.length ≤ 3584) (s : State) :
    perform (.loadRom bytes) s = (s.withRom bytes, .ok) := if_neg (Nat.not_lt.mpr h)

/-- Everything a load does to reads inside memory. -/
theorem withRom_memRead {s : State} (wf : s.mem.wf) {bytes : List Byte} (h : bytes.length ≤ 3584) {a : Nat}
    (ha : a < 4096) : (s.withRom bytes).memRead a =
      if 0x200 ≤ a then (bytes[a - 0x200]?).getD (s.memRead a) else s.memRead a := by
  rw [memRead_of_lt ha, memRead_of_lt ha]
  exact Memory.read_writeBytes wf (by simp; omega) a

theorem withRom_memRead_byte {s : State} (wf : s.mem.wf) {bytes : List Byte} (h : bytes.length ≤ 3584) {k : Nat}
    (hk : k < bytes.length) : (s.withRom bytes).memRead (0x200 + k) = bytes[k] := by
  rw [withRom_memRead wf h (by omega), if_pos (by omega), Nat.add_sub_cancel_left, List.getElem?_eq_getElem hk,
    Option.getD_some]

theorem withRom_memRead_other {s : State} (wf : s.mem.wf) {bytes : List Byte} (h : bytes.length ≤ 3584) {a : Nat}
    (ha : a < 4096) (out : a < 0x200 ∨ 0x200 + bytes.length ≤ a) : (s.withRom bytes).memRead a = s.memRead a := by
  rw [withRom_memRead wf h ha]
  split
  · rw [List.getElem?_eq_none (by omega), Option.getD_none]
  · rfl

theorem withRom_mem_wf {s : State} (wf : s.mem.wf) {bytes : List Byte} (h : bytes.length ≤ 3584) :
    (s.withRom bytes).mem.wf :=
  Memory.writeBytes_wf wf (by simp; omega)

/-- Settles O55, by whether the ROM fits. -/
theorem loadRomPlacesTheBytes : Obligations.LoadRomPlacesTheBytes := by
  unfold Obligations.LoadRomPlacesTheBytes
  intro bytes s wf
  refine ⟨fun large => perform_loadRom_of_gt large s, fun fits => ?_⟩
  exact ⟨s.withRom bytes, perform_loadRom_of_le fits s, withRom_mem_wf wf fits,
    fun k hk => withRom_memRead_byte wf fits hk, fun a out ha => withRom_memRead_other wf fits ha out,
    onlyChanges_of_eq_withParts rfl⟩

/-- Settles O57: reset puts pc at 0x200, where the load put the program's first two bytes, and leaves DF false. -/
theorem aLoadedProgramStartsAtItsFirstWord : Obligations.ALoadedProgramStartsAtItsFirstWord := by
  unfold Obligations.ALoadedProgramStartsAtItsFirstWord
  intro s t b0 b1 rest i hlen hi h
  have fits : (b0 :: b1 :: rest).length ≤ 3584 := hlen
  obtain rfl : s.resetOp.withRom (b0 :: b1 :: rest) = t := by
    have boot := congrArg Prod.fst h
    rwa [performAll_cons, performAll_cons, performAll_nil, perform, perform_loadRom_of_le fits] at boot
  have wf : s.resetOp.mem.wf := State.reset_mem_wf
  have pc : (s.resetOp.withRom (b0 :: b1 :: rest)).pc.toNat = 0x200 := rfl
  have high : (s.resetOp.withRom (b0 :: b1 :: rest)).memRead 0x200 = b0 :=
    withRom_memRead_byte wf fits (k := 0) (by simp)
  have low : (s.resetOp.withRom (b0 :: b1 :: rest)).memRead (0x200 + 1) = b1 :=
    withRom_memRead_byte wf fits (k := 1) (by simp)
  refine stepRunsTheDecodedInstruction _ i (by rw [pc]; decide) ?_
  rwa [pc, high, low]

/-! ## Placing a word (log 11) -/

/-- The two bytes of a word stored at pc and pc + 1. -/
def State.storeWord (s : State) (op : Word) : State :=
  (s.memWrite s.pc.toNat (highByte op)).memWrite (s.pc.toNat + 1) (lowByte op)

/-- A word stored at pc, where a fetch is inside memory, is the word fetched. -/
theorem fetch_storeWord {s : State} (wf : s.mem.wf) (hpc : s.pc.toNat + 1 < 4096) (op : Word) :
    fetch (s.storeWord op) = .ok op := by
  have reads (a : Nat) (ha : a < 4096) : (s.storeWord op).mem.read a =
      if a = s.pc.toNat + 1 then lowByte op else if a = s.pc.toNat then highByte op else s.mem.read a := by
    rw [← memRead_of_lt ha, ← memRead_of_lt ha, State.storeWord, State.memWrite_memRead (State.memWrite_wf wf _ _),
      State.memWrite_memRead wf, Nat.mod_eq_of_lt ha, Nat.mod_eq_of_lt hpc, Nat.mod_eq_of_lt (Nat.lt_of_succ_lt hpc)]
  have pc : (s.storeWord op).pc = s.pc := rfl
  refine fetch_eq_ok.mpr ⟨hpc, ?_⟩
  rw [pc, reads _ hpc, reads _ (Nat.lt_of_succ_lt hpc)]
  simp

/-- A placed word is the next one fetched, whatever pc was. -/
theorem fetch_placeOpcode {s : State} (wf : s.mem.wf) (op : Word) : fetch (s.placeOpcode op) = .ok op := by
  unfold State.placeOpcode
  split
  · next hpc => exact fetch_storeWord wf hpc op
  · have hpc : (s.setPc 0x200).pc.toNat + 1 < 4096 := by rw [State.setPc_pc]; decide
    exact fetch_storeWord (s := s.setPc 0x200) wf hpc op

/-- Settles O58: the placed word is the one fetched. -/
theorem aPlacedWordIsTheNextInstruction : Obligations.APlacedWordIsTheNextInstruction := by
  unfold Obligations.APlacedWordIsTheNextInstruction
  intro s w i wf hi
  have word : BitVec.ofNat 16 (w % 2 ^ 16) = BitVec.ofNat 16 w := by
    apply BitVec.eq_of_toNat_eq
    simp
  have decodes : decodeWord (BitVec.ofNat 16 (w % 2 ^ 16)) = .ok i := by
    rw [word]
    exact (decodeTableWord_eq i).mp hi
  exact step_of_ok (fetchInstr_eq_ok.mpr ⟨_, fetch_placeOpcode wf _, decodes⟩)

end Sys2Proof.Machine
